-- ==== Sys2Proof/Word.lean ====
section
/-! DEFINITION. Word.lean: the widths of the machine's values (00_scope.md R6, R9). Every value is unsigned. -/

namespace Sys2Proof

/-- `u8`: the content of a general register, a timer or a memory cell (XLEN = 8). -/
abbrev Byte := BitVec 8

/-- `u16`: the content of I, PC or a stack entry, and one instruction word (ALEN = ILEN = 16). -/
abbrev Word := BitVec 16

/-- The index of a general register, V0 to VF (10_state.md R21): a 4-bit field of the instruction word. -/
abbrev RegIdx := Fin 16

/-- A logical key, 0x0 to 0xF (10_state.md R32). "No key" is not one of them. -/
abbrev Key := Fin 16

end Sys2Proof
end

