-- ==== Sys2Proof/Syntax.lean ====
section
/-! DEFINITION. Syntax.lean: the 35 forms of 30_encoding.md R95, one constructor for each row of the opcode table.
The fields are those of R92: X and Y register indices, NN a byte, NNN a 12-bit address, N a number 0 to 15. -/

namespace Sys2Proof

/-- One instruction. The docstring of a constructor gives the spec's name for the form, its pattern. -/
inductive Instr where
  /-- `0NNN`, the legacy external-program call. -/
  | sys (nnn : BitVec 12)
  /-- `00E0`. -/
  | cls
  /-- `00EE`. -/
  | ret
  /-- `1NNN`. -/
  | jp (nnn : BitVec 12)
  /-- `2NNN`. -/
  | call (nnn : BitVec 12)
  /-- `3XNN`. -/
  | seImm (x : RegIdx) (nn : Byte)
  /-- `4XNN`. -/
  | sneImm (x : RegIdx) (nn : Byte)
  /-- `5XY0`. -/
  | seReg (x y : RegIdx)
  /-- `6XNN`. -/
  | ldImm (x : RegIdx) (nn : Byte)
  /-- `7XNN`. -/
  | addImm (x : RegIdx) (nn : Byte)
  /-- `8XY0`. -/
  | ldReg (x y : RegIdx)
  /-- `8XY1`. -/
  | orReg (x y : RegIdx)
  /-- `8XY2`. -/
  | andReg (x y : RegIdx)
  /-- `8XY3`. -/
  | xorReg (x y : RegIdx)
  /-- `8XY4`. -/
  | addReg (x y : RegIdx)
  /-- `8XY5`. -/
  | subReg (x y : RegIdx)
  /-- `8XY6`; Y is encoded and ignored (R99). -/
  | shrReg (x y : RegIdx)
  /-- `8XY7`. -/
  | subnReg (x y : RegIdx)
  /-- `8XYE`; Y is encoded and ignored (R99). -/
  | shlReg (x y : RegIdx)
  /-- `9XY0`. -/
  | sneReg (x y : RegIdx)
  /-- `ANNN`. -/
  | ldI (nnn : BitVec 12)
  /-- `BNNN`. -/
  | jpV0 (nnn : BitVec 12)
  /-- `CXNN`. -/
  | rnd (x : RegIdx) (nn : Byte)
  /-- `DXYN`. -/
  | drw (x y : RegIdx) (n : Fin 16)
  /-- `EX9E`. -/
  | skp (x : RegIdx)
  /-- `EXA1`. -/
  | sknp (x : RegIdx)
  /-- `FX07`. -/
  | ldVxDT (x : RegIdx)
  /-- `FX0A`. -/
  | ldVxK (x : RegIdx)
  /-- `FX15`. -/
  | ldDTVx (x : RegIdx)
  /-- `FX18`. -/
  | ldSTVx (x : RegIdx)
  /-- `FX1E`. -/
  | addIVx (x : RegIdx)
  /-- `FX29`. -/
  | ldFVx (x : RegIdx)
  /-- `FX33`. -/
  | ldBVx (x : RegIdx)
  /-- `FX55`. -/
  | storeRegs (x : RegIdx)
  /-- `FX65`. -/
  | loadRegs (x : RegIdx)
  deriving DecidableEq, Repr

end Sys2Proof
end

