-- ==== Sys2Proof/Decode.lean ====
section
/-! DEFINITION. Decode.lean: the decoding function of 30_encoding.md R94, total on all words and on any bytes, and the
encoder written from the patterns of R91 and R95. -/

namespace Sys2Proof

/-- Why bytes are no instruction. -/
inductive Reject where
  /-- Fewer than the two bytes of an instruction word. -/
  | tooShort
  /-- `illegal`: the word matches none of the 35 forms (R97). -/
  | illegal (w : Word)
  deriving DecidableEq, Repr

/-! The fields of a word, R92. -/

/-- `op = w[15:12]`. -/
def opField (w : Word) : BitVec 4 := w.extractLsb' 12 4

/-- `X = w[11:8]`. -/
def xField (w : Word) : RegIdx := (w.extractLsb' 8 4).toFin

/-- `Y = w[7:4]`. -/
def yField (w : Word) : RegIdx := (w.extractLsb' 4 4).toFin

/-- `N = w[3:0]` as a number. -/
def nField (w : Word) : Fin 16 := (w.extractLsb' 0 4).toFin

/-- `fn4 = w[3:0]` as a literal nibble. -/
def fn4Field (w : Word) : BitVec 4 := w.extractLsb' 0 4

/-- `NN = w[7:0]`, and `fn8` in the formats that name it a literal. -/
def nnField (w : Word) : Byte := w.extractLsb' 0 8

/-- `NNN = w[11:0]`. -/
def nnnField (w : Word) : BitVec 12 := w.extractLsb' 0 12

/-- The words of op 0: `00E0` and `00EE` are tried before `0NNN` (R94, R98). -/
def decodeOp0 (w : Word) : Instr :=
  if w = 0x00E0#16 then .cls else if w = 0x00EE#16 then .ret else .sys (nnnField w)

/-- The words of op 8, by their low nibble (R94). -/
def decodeOp8 (w : Word) : Except Reject Instr :=
  match fn4Field w with
  | 0x0#4 => .ok (.ldReg (xField w) (yField w))
  | 0x1#4 => .ok (.orReg (xField w) (yField w))
  | 0x2#4 => .ok (.andReg (xField w) (yField w))
  | 0x3#4 => .ok (.xorReg (xField w) (yField w))
  | 0x4#4 => .ok (.addReg (xField w) (yField w))
  | 0x5#4 => .ok (.subReg (xField w) (yField w))
  | 0x6#4 => .ok (.shrReg (xField w) (yField w))
  | 0x7#4 => .ok (.subnReg (xField w) (yField w))
  | 0xE#4 => .ok (.shlReg (xField w) (yField w))
  | _ => .error (.illegal w)

/-- The words of op E, by their low byte (R94). -/
def decodeOpE (w : Word) : Except Reject Instr :=
  match nnField w with
  | 0x9E#8 => .ok (.skp (xField w))
  | 0xA1#8 => .ok (.sknp (xField w))
  | _ => .error (.illegal w)

/-- The words of op F, by their low byte (R94). -/
def decodeOpF (w : Word) : Except Reject Instr :=
  match nnField w with
  | 0x07#8 => .ok (.ldVxDT (xField w))
  | 0x0A#8 => .ok (.ldVxK (xField w))
  | 0x15#8 => .ok (.ldDTVx (xField w))
  | 0x18#8 => .ok (.ldSTVx (xField w))
  | 0x1E#8 => .ok (.addIVx (xField w))
  | 0x29#8 => .ok (.ldFVx (xField w))
  | 0x33#8 => .ok (.ldBVx (xField w))
  | 0x55#8 => .ok (.storeRegs (xField w))
  | 0x65#8 => .ok (.loadRegs (xField w))
  | _ => .error (.illegal w)

/-- `decode(w)` of R94. The last arm is op = 0xF: a nibble has no other value. -/
def decodeWord (w : Word) : Except Reject Instr :=
  match opField w with
  | 0x0#4 => .ok (decodeOp0 w)
  | 0x1#4 => .ok (.jp (nnnField w))
  | 0x2#4 => .ok (.call (nnnField w))
  | 0x3#4 => .ok (.seImm (xField w) (nnField w))
  | 0x4#4 => .ok (.sneImm (xField w) (nnField w))
  | 0x5#4 => if fn4Field w = 0 then .ok (.seReg (xField w) (yField w)) else .error (.illegal w)
  | 0x6#4 => .ok (.ldImm (xField w) (nnField w))
  | 0x7#4 => .ok (.addImm (xField w) (nnField w))
  | 0x8#4 => decodeOp8 w
  | 0x9#4 => if fn4Field w = 0 then .ok (.sneReg (xField w) (yField w)) else .error (.illegal w)
  | 0xA#4 => .ok (.ldI (nnnField w))
  | 0xB#4 => .ok (.jpV0 (nnnField w))
  | 0xC#4 => .ok (.rnd (xField w) (nnField w))
  | 0xD#4 => .ok (.drw (xField w) (yField w) (nField w))
  | 0xE#4 => decodeOpE w
  | _ => decodeOpF w

/-- The word of two bytes, big-endian: the byte at the lower address is `w[15:8]` (20_memory.md R65). -/
def wordOfBytes (hi lo : Byte) : Word := hi ++ lo

/-- The byte of a word that lies at the lower address. -/
def hiByte (w : Word) : Byte := w.extractLsb' 8 8

/-- The byte of a word that lies at the higher address. -/
def loByte (w : Word) : Byte := w.extractLsb' 0 8

/-- Decoding from the front of any bytes: the instruction and the bytes after its word, or the reason there is none. -/
def decode : List Byte → Except Reject (Instr × List Byte)
  | hi :: lo :: rest =>
    match decodeWord (wordOfBytes hi lo) with
    | .ok i => .ok (i, rest)
    | .error r => .error r
  | _ => .error .tooShort

/-- A 4-bit field of the word from the number it stands for. -/
def fieldBits (x : Fin 16) : BitVec 4 := BitVec.ofFin x

/-- The word of an instruction, from the formats of R91 and the patterns of R95. -/
def encode : Instr → Word
  | .sys nnn => 0x0#4 ++ nnn
  | .cls => 0x00E0#16
  | .ret => 0x00EE#16
  | .jp nnn => 0x1#4 ++ nnn
  | .call nnn => 0x2#4 ++ nnn
  | .seImm x nn => 0x3#4 ++ fieldBits x ++ nn
  | .sneImm x nn => 0x4#4 ++ fieldBits x ++ nn
  | .seReg x y => 0x5#4 ++ fieldBits x ++ fieldBits y ++ 0x0#4
  | .ldImm x nn => 0x6#4 ++ fieldBits x ++ nn
  | .addImm x nn => 0x7#4 ++ fieldBits x ++ nn
  | .ldReg x y => 0x8#4 ++ fieldBits x ++ fieldBits y ++ 0x0#4
  | .orReg x y => 0x8#4 ++ fieldBits x ++ fieldBits y ++ 0x1#4
  | .andReg x y => 0x8#4 ++ fieldBits x ++ fieldBits y ++ 0x2#4
  | .xorReg x y => 0x8#4 ++ fieldBits x ++ fieldBits y ++ 0x3#4
  | .addReg x y => 0x8#4 ++ fieldBits x ++ fieldBits y ++ 0x4#4
  | .subReg x y => 0x8#4 ++ fieldBits x ++ fieldBits y ++ 0x5#4
  | .shrReg x y => 0x8#4 ++ fieldBits x ++ fieldBits y ++ 0x6#4
  | .subnReg x y => 0x8#4 ++ fieldBits x ++ fieldBits y ++ 0x7#4
  | .shlReg x y => 0x8#4 ++ fieldBits x ++ fieldBits y ++ 0xE#4
  | .sneReg x y => 0x9#4 ++ fieldBits x ++ fieldBits y ++ 0x0#4
  | .ldI nnn => 0xA#4 ++ nnn
  | .jpV0 nnn => 0xB#4 ++ nnn
  | .rnd x nn => 0xC#4 ++ fieldBits x ++ nn
  | .drw x y n => 0xD#4 ++ fieldBits x ++ fieldBits y ++ fieldBits n
  | .skp x => 0xE#4 ++ fieldBits x ++ 0x9E#8
  | .sknp x => 0xE#4 ++ fieldBits x ++ 0xA1#8
  | .ldVxDT x => 0xF#4 ++ fieldBits x ++ 0x07#8
  | .ldVxK x => 0xF#4 ++ fieldBits x ++ 0x0A#8
  | .ldDTVx x => 0xF#4 ++ fieldBits x ++ 0x15#8
  | .ldSTVx x => 0xF#4 ++ fieldBits x ++ 0x18#8
  | .addIVx x => 0xF#4 ++ fieldBits x ++ 0x1E#8
  | .ldFVx x => 0xF#4 ++ fieldBits x ++ 0x29#8
  | .ldBVx x => 0xF#4 ++ fieldBits x ++ 0x33#8
  | .storeRegs x => 0xF#4 ++ fieldBits x ++ 0x55#8
  | .loadRegs x => 0xF#4 ++ fieldBits x ++ 0x65#8

/-- The bytes of an instruction in memory order (20_memory.md R65). -/
def encodeBytes (i : Instr) : List Byte := [hiByte (encode i), loByte (encode i)]

/-- The mask and the match value of each form's row in R95. -/
def rowOf : Instr → Word × Word
  | .sys _ => (0xF000, 0x0000)
  | .cls => (0xFFFF, 0x00E0)
  | .ret => (0xFFFF, 0x00EE)
  | .jp _ => (0xF000, 0x1000)
  | .call _ => (0xF000, 0x2000)
  | .seImm _ _ => (0xF000, 0x3000)
  | .sneImm _ _ => (0xF000, 0x4000)
  | .seReg _ _ => (0xF00F, 0x5000)
  | .ldImm _ _ => (0xF000, 0x6000)
  | .addImm _ _ => (0xF000, 0x7000)
  | .ldReg _ _ => (0xF00F, 0x8000)
  | .orReg _ _ => (0xF00F, 0x8001)
  | .andReg _ _ => (0xF00F, 0x8002)
  | .xorReg _ _ => (0xF00F, 0x8003)
  | .addReg _ _ => (0xF00F, 0x8004)
  | .subReg _ _ => (0xF00F, 0x8005)
  | .shrReg _ _ => (0xF00F, 0x8006)
  | .subnReg _ _ => (0xF00F, 0x8007)
  | .shlReg _ _ => (0xF00F, 0x800E)
  | .sneReg _ _ => (0xF00F, 0x9000)
  | .ldI _ => (0xF000, 0xA000)
  | .jpV0 _ => (0xF000, 0xB000)
  | .rnd _ _ => (0xF000, 0xC000)
  | .drw _ _ _ => (0xF000, 0xD000)
  | .skp _ => (0xF0FF, 0xE09E)
  | .sknp _ => (0xF0FF, 0xE0A1)
  | .ldVxDT _ => (0xF0FF, 0xF007)
  | .ldVxK _ => (0xF0FF, 0xF00A)
  | .ldDTVx _ => (0xF0FF, 0xF015)
  | .ldSTVx _ => (0xF0FF, 0xF018)
  | .addIVx _ => (0xF0FF, 0xF01E)
  | .ldFVx _ => (0xF0FF, 0xF029)
  | .ldBVx _ => (0xF0FF, 0xF033)
  | .storeRegs _ => (0xF0FF, 0xF055)
  | .loadRegs _ => (0xF0FF, 0xF065)

/-- The instruction the decoder reads from a row of the opcode table: the 16-bit word numbered as the table numbers it,
laid out big-endian as the hardware stores it; bits above `nbits` are 0 (log 28). -/
def decodeTableWord (nbits w : Nat) : Option Instr :=
  let word : Word := BitVec.ofNat 16 (w % 2 ^ nbits)
  match decode [hiByte word, loByte word] with
  | .ok (i, _) => some i
  | .error _ => none

end Sys2Proof
end

