-- ==== Sys2Proof/Config.lean ====
section
/-! DEFINITION. Config.lean: what an implementation fixes (00_scope.md R6, the rows marked "parameter") and the values
the spec leaves free. The defaults that the spec gives stand in Machine/Parameters.lean. -/

namespace Sys2Proof

/-- The parameters of the hardware. Plain data, carried in State and changed by no step (log 1). -/
structure Config where
  /-- `MEM_SIZE`: valid addresses are 0 to `memSize - 1` (00_scope.md R7). -/
  memSize : Nat
  /-- `STACK_DEPTH`: `none` is the unbounded stack (10_state.md R27). -/
  stackDepth : Option Nat
  /-- `CYCLE_MAX`: where the cycle counter saturates, OPEN in the spec (10_state.md R34). -/
  cycleMax : Nat
  /-- `FONT`: the 80 glyph bytes of addresses 0 to 79 at reset (20_memory.md R67). -/
  font : Vector Byte 80
  /-- `DELAY_CB_BOUND`: whether the delay timer's event reaches the environment (10_state.md R45). -/
  delayCbBound : Bool
  /-- `SOUND_CB_BOUND`: the same for the sound timer's two events (10_state.md R45). -/
  soundCbBound : Bool
  deriving DecidableEq, Repr

/-- The values of the parameters the spec admits: R7 for `MEM_SIZE`, R34 for `CYCLE_MAX`. -/
def Config.valid (c : Config) : Bool :=
  decide (0x202 ≤ c.memSize) && decide (c.memSize ≤ 65536) && decide (1 ≤ c.cycleMax)

/-- FREE VALUE (log 2). The default `CYCLE_MAX` less one: the source gives no saturation value (10_state.md R34). -/
opaque Config.cycleMaxLessOne : Nat

/-- FREE VALUE (log 3). The random byte of the n-th draw: an input under no law (41_alu.md R152). -/
opaque Config.randByte : Nat → Byte

namespace Machine

/-- The operations of the HOST agent (10_state.md R40, 60_exceptions.md R263). -/
inductive HostOp where
  | reset
  | load (bytes : List Byte)
  | keyDown (k : Key)
  | keyUp
  /-- Drives the level `pause`. -/
  | setPause (level : Bool)
  /-- Asserts the level `stop`; it is not de-asserted before `reset`. -/
  | setStop
  /-- The display read port (10_state.md R46). -/
  | fbRead (x y : Nat)
  deriving DecidableEq, Repr, Inhabited

/-- Whose step comes next (60_exceptions.md R260). -/
inductive Turn where
  | cpu
  | tick
  | host (op : HostOp)
  deriving DecidableEq, Repr, Inhabited

end Machine

/-- FREE VALUE (log 4). The n-th turn of an endless schedule under no law: which agent moves next is not fixed
(60_exceptions.md R262). -/
opaque Config.freeTurn : Nat → Machine.Turn

end Sys2Proof
end

