-- ==== Sys2Proof/Machine/Parameters.lean ====
section
/-! DEFINITION. Machine/Parameters.lean: the default values of the parameters (00_scope.md R6, 20_memory.md R67). -/

namespace Sys2Proof

/-- The conventional font of 20_memory.md R67. PRESUMED: the spec marks the bytes as general knowledge (log 8). -/
def Config.defaultFont : Vector Byte 80 := #v[
  0xF0, 0x90, 0x90, 0x90, 0xF0,  0x20, 0x60, 0x20, 0x20, 0x70,
  0xF0, 0x10, 0xF0, 0x80, 0xF0,  0xF0, 0x10, 0xF0, 0x10, 0xF0,
  0x90, 0x90, 0xF0, 0x10, 0x10,  0xF0, 0x80, 0xF0, 0x10, 0xF0,
  0xF0, 0x80, 0xF0, 0x90, 0xF0,  0xF0, 0x10, 0x20, 0x40, 0x40,
  0xF0, 0x90, 0xF0, 0x90, 0xF0,  0xF0, 0x90, 0xF0, 0x10, 0xF0,
  0xF0, 0x90, 0xF0, 0x90, 0x90,  0xE0, 0x90, 0xE0, 0x90, 0xE0,
  0xF0, 0x80, 0x80, 0x80, 0xF0,  0xE0, 0x90, 0x90, 0x90, 0xE0,
  0xF0, 0x80, 0xF0, 0x80, 0xF0,  0xF0, 0x80, 0xF0, 0x80, 0x80]

/-- `CYCLE_MAX` where nothing else is configured: some natural number at least 1 (10_state.md R34; log 2). -/
def Config.openCycleMax : Nat := Config.cycleMaxLessOne + 1

/-- The machine as the spec describes it by default: 4095 cells (R7), an unbounded stack (10_state.md R27), every event
delivered (10_state.md R45). -/
def Config.default : Config where
  memSize := 4095
  stackDepth := none
  cycleMax := Config.openCycleMax
  font := Config.defaultFont
  delayCbBound := true
  soundCbBound := true

/-- `PROG_BASE`: the load address and the reset value of PC (R6). -/
def progBase : Nat := 0x200

end Sys2Proof
end

