-- ==== Sys2Proof/Machine/State.lean ====
section
/-! DEFINITION. Machine/State.lean: the state of the block (10_state.md R20), the levels its inputs hold, the
parameters, and the model's own fields that carry the free inputs and the outputs. Plain data. -/

namespace Sys2Proof.Machine

/-- The faults the CPU can raise (60_exceptions.md R240). -/
inductive CpuFault where
  /-- Code 1: an illegal word or the form 0NNN (R241). -/
  | unknownOpcode (w : Word)
  /-- Code 2: a memory access outside 0 to `MEM_SIZE - 1` (R242). -/
  | outOfBounds (a : Nat)
  /-- Code 3: `00EE` with an empty stack (R243). -/
  | stackUnderflow
  /-- Code 4: `2NNN` with a full stack, under a finite `STACK_DEPTH` (R244). -/
  | stackOverflow
  deriving DecidableEq, Repr

/-- The run state of the CPU agent, `RUN` (10_state.md R36). -/
inductive RunState where
  | running
  /-- An `FX0A` is waiting for a key; `WAIT` holds its X. -/
  | waitKey
  /-- Fault `f` was raised; the CPU performs no further step. -/
  | halted (f : CpuFault)
  /-- The host asserted `stop`. -/
  | stopped
  deriving DecidableEq, Repr

/-- The diagnostic snapshot of a fault (10_state.md R47). -/
structure Snapshot where
  cycles : Nat
  v      : Vector Byte 16
  i      : Word
  pc     : Word
  stack  : List Word
  dt     : Byte
  st     : Byte
  deriving DecidableEq, Repr

/-- The output events (10_state.md R45). -/
inductive OutEvent where
  | toneOn
  | toneOff
  | delayZero
  | fault (f : CpuFault) (snap : Snapshot)
  deriving DecidableEq, Repr

/-- The cells of MEM whose content differs from their reset content, by rising address (log 7). -/
abbrev Memory := List Host.Cell

/-- `FB[y][x]`: 32 rows of 64 pixels (10_state.md R29). -/
abbrev Framebuffer := Vector (Vector Bool 64) 32

/-- Whose turns come after those of the agenda, for ever: the order is not fixed (60_exceptions.md R262, log 4). -/
inductive Schedule where
  /-- The listed turns, over and over; with none listed the CPU alone moves. -/
  | repeating (turns : List Turn)
  /-- The turns `Config.freeTurn n`, `Config.freeTurn (n + 1)` and so on without end. -/
  | free (n : Nat)
  deriving DecidableEq, Repr

structure State where
  /-- The parameters; no step changes them (log 1). -/
  cfg       : Config
  /-- `V`, the general registers. -/
  v         : Vector Byte 16
  /-- `I`, the address register. -/
  i         : Word
  /-- `PC`, the program counter. -/
  pc        : Word
  /-- `STACK`, top first. -/
  stack     : List Word
  /-- `MEM`. -/
  mem       : Memory
  /-- `FB`. -/
  fb        : Framebuffer
  /-- `DT`, the delay timer. -/
  dt        : Byte
  /-- `ST`, the sound timer. -/
  st        : Byte
  /-- `KEY`; `none` is `KEY_NONE`. -/
  key       : Option Key
  /-- `CYCLES`. -/
  cycles    : Nat
  /-- `RUN`. -/
  run       : RunState
  /-- `WAIT`: the X of the waiting `FX0A`, unused otherwise. -/
  wait      : RegIdx
  /-- The level input `pause`. -/
  pause     : Bool
  /-- The level input `stop`. -/
  stop      : Bool
  /-- MODEL'S OWN: whether an instruction step was taken since reset, for the host's duties (log 13). -/
  started   : Bool
  /-- MODEL'S OWN: how many random bytes have been drawn (log 3). -/
  draws     : Nat
  /-- MODEL'S OWN: the next turns (log 4). -/
  agenda    : List Turn
  /-- MODEL'S OWN: the turns after those of the agenda (log 4). -/
  schedule  : Schedule
  /-- The output events emitted so far, oldest first (log 15). -/
  events    : List OutEvent
  /-- The bits the display read port has answered, oldest first (log 15). -/
  fbReplies : List Bool
  deriving DecidableEq, Repr

/-- Why the whole machine has no step: only the CPU has turns left, so no tick and no host operation is to come, and it
has no enabled step (60_exceptions.md R261). Safe: the model stops where the block would only be held (log 5). -/
inductive Fault where
  /-- Raised by `step` in `HALTED(f)`. Safe. -/
  | cpuHalted (f : CpuFault)
  /-- Raised by `step` in `STOPPED`. Safe. -/
  | cpuStopped
  /-- Raised by `step` while `pause = 1` holds the CPU. Safe. -/
  | cpuHeld
  deriving DecidableEq, Repr

/-- Why the model gives no meaning. -/
inductive Refusal where
  /-- Raised by `exec` for an instruction that has no meaning yet. Safe. -/
  | notModelled (mnemonic : String)
  /-- Raised by the host turn `reset` under a CPU that may take a step: a breach of the host's duty of 60_exceptions.md
  R263, for which "the model gives no step". Safe (log 13). -/
  | resetWhileRunning
  /-- Raised by the host turn `load` after the first instruction step or in `HALTED` or `STOPPED`: the same duty and the
  table of R261. Safe (log 14). -/
  | loadOutsideBoot
  deriving DecidableEq, Repr

/-- The machine right after reset, 10_state.md R50. Values R50 does not give: `wait` (log 11), `pause` and `stop`
(log 12), `started` (log 13), `draws` (log 3), `agenda` and `schedule` (log 4), `fbReplies` (log 15). -/
def State.reset : State where
  cfg       := Config.default
  v         := Vector.replicate 16 0
  i         := 0
  pc        := 0x200
  stack     := []
  mem       := []
  fb        := Vector.replicate 32 (Vector.replicate 64 false)
  dt        := 0
  st        := 0
  key       := none
  cycles    := 0
  run       := .running
  wait      := 0
  pause     := false
  stop      := false
  started   := false
  draws     := 0
  agenda    := []
  schedule  := .repeating []
  events    := []
  fbReplies := []

end Sys2Proof.Machine
end

