-- ==== Sys2Proof/Machine/Display.lean ====
section
/-! DEFINITION. Machine/Display.lean: the XOR framebuffer compositor (43_display.md R190 to R195). -/

namespace Sys2Proof.Machine

/-- `FbRead(x, y)`: both coordinates wrap (R191). -/
def fbRead (fb : Framebuffer) (x y : Nat) : Bool :=
  (fb[y % 32]'(Nat.mod_lt _ (by decide)))[x % 64]'(Nat.mod_lt _ (by decide))

/-- `FbWrite(x, y, b)`: one cell changes (R192). -/
def fbWrite (fb : Framebuffer) (x y : Nat) (b : Bool) : Framebuffer :=
  fb.set (y % 32) ((fb[y % 32]'(Nat.mod_lt _ (by decide))).set (x % 64) b (Nat.mod_lt _ (by decide)))
    (Nat.mod_lt _ (by decide))

/-- `FbReset()` (R193). -/
def fbReset : Framebuffer := Vector.replicate 32 (Vector.replicate 64 false)

/-- The grid during a draw, with the collision outcome so far. -/
structure Canvas where
  fb  : Framebuffer
  hit : Bool
  deriving DecidableEq, Repr

/-- One sprite bit: a 1 inverts its cell and collides when the cell was 1; a 0 leaves its cell alone (R194, R197). -/
def drawPixel (x y : Nat) (bit : Bool) (c : Canvas) : Canvas :=
  if bit then
    let old := fbRead c.fb x y
    { fb := fbWrite c.fb x y (!old), hit := c.hit || old }
  else c

/-- The bit of a sprite byte for column offset `col`: bit 7 is the leftmost pixel. PRESUMED by the spec (R195; log 9). -/
def spriteBit (b : Byte) (col : Nat) : Bool := b.getLsbD (7 - col)

/-- The columns of a sprite row from offset `8 - n` on. -/
def drawCols (x0 y : Nat) (b : Byte) : Nat → Canvas → Canvas
  | 0, c => c
  | n + 1, c => drawCols x0 y b n (drawPixel (x0 + (7 - n)) y (spriteBit b (7 - n)) c)

/-- One sprite row, columns 0 to 7 in this order (R197). -/
def drawRow (x0 y : Nat) (b : Byte) (c : Canvas) : Canvas := drawCols x0 y b 8 c

end Sys2Proof.Machine
end

