-- ==== Sys2Proof/Machine/Flags.lean ====
section
/-! DEFINITION. Machine/Flags.lean: the numeric primitives with flag capture (00_scope.md R10) and the bits the shifts
capture (41_alu.md R150, R153). VF is the only flag of the machine (10_state.md R22). -/

namespace Sys2Proof.Machine

/-- A flag outcome as the content of VF. -/
def flagByte (b : Bool) : Byte := if b then 1 else 0

/-- `add8(a, b)`: the sum modulo 256 and whether it passed 255. -/
def add8 (a b : Byte) : Byte × Bool :=
  let n := a.toNat + b.toNat
  (BitVec.ofNat 8 n, decide (n > 255))

/-- `sub8(a, b)`: the difference modulo 256 and whether a borrow occurred. -/
def sub8 (a b : Byte) : Byte × Bool :=
  (BitVec.ofNat 8 (if b.toNat ≤ a.toNat then a.toNat - b.toNat else a.toNat + 256 - b.toNat),
    decide (a.toNat < b.toNat))

/-- Bit 0, as `8XY6` writes it to VF. -/
def lowBit (a : Byte) : Byte := a &&& 1

/-- Bit 7, as `8XYE` writes it to VF. -/
def highBit (a : Byte) : Byte := (a >>> 7) &&& 1

/-- The logical shift right by one. -/
def shiftRight1 (a : Byte) : Byte := a >>> 1

/-- The shift left by one, modulo 256. -/
def shiftLeft1 (a : Byte) : Byte := a <<< 1

end Sys2Proof.Machine
end

