-- ==== Sys2Proof/Machine/Memory.lean ====
section
/-! DEFINITION. Machine/Memory.lean: MEM as a list of the cells that differ from their reset content (20_memory.md R60,
R68). The canonical form is `Memory.wf`; Laws/Memory.lean proves that every operation keeps it. -/

namespace Sys2Proof.Machine

/-- The reset content of a cell, and so what an unlisted address reads as: the font in 0 to 79, 0 elsewhere
(10_state.md R50; log 7). -/
def Memory.resetByte (c : Config) (a : Nat) : Byte := if h : a < 80 then c.font[a] else 0

/-- The listed content of an address. -/
def Memory.find : Memory → Nat → Option Byte
  | [], _ => none
  | (k, b) :: m, a => if k = a then some b else Memory.find m a

/-- The byte at an address. -/
def Memory.read (c : Config) (m : Memory) (a : Nat) : Byte := (Memory.find m a).getD (Memory.resetByte c a)

/-- List a byte at its place by rising address. -/
def Memory.insert : Memory → Nat → Byte → Memory
  | [], a, b => [(a, b)]
  | (k, c) :: m, a, b =>
    if k < a then (k, c) :: Memory.insert m a b else if k = a then (a, b) :: m else (a, b) :: (k, c) :: m

/-- Put a byte at an address. Writing the reset content removes the entry. -/
def Memory.write (c : Config) (m : Memory) (a : Nat) (b : Byte) : Memory :=
  if b = Memory.resetByte c a then m.filter (fun p => p.1 ≠ a) else Memory.insert m a b

/-- The listed cells of bytes that lie from `a` on, all of them at addresses whose reset content is 0. -/
def Memory.cellsFrom : Nat → List Byte → Memory
  | _, [] => []
  | a, b :: bs => if b = 0 then Memory.cellsFrom (a + 1) bs else (a, b) :: Memory.cellsFrom (a + 1) bs

/-- `load(bytes)` on MEM (70_reset_and_hazards.md R283): the program area is zeroed, then the bytes are written from
0x200 on; bytes beyond its end are discarded. -/
def Memory.load (c : Config) (m : Memory) (bytes : List Byte) : Memory :=
  m.filter (fun p => p.1 < progBase) ++ Memory.cellsFrom progBase (bytes.take (c.memSize - progBase))

/-- The canonical form: strictly rising addresses, all of them in MEM, and no cell listed at its reset content. -/
def Memory.wf (c : Config) (m : Memory) : Bool :=
  decide (m.Pairwise (fun p q => p.1 < q.1)) &&
    m.all (fun p => decide (p.1 < c.memSize) && decide (p.2 ≠ Memory.resetByte c p.1))

end Sys2Proof.Machine
end

