-- ==== Sys2Proof/Machine/Operands.lean ====
section
/-! DEFINITION. Machine/Operands.lean: the operand forms of 30_encoding.md R93 and the values computed from one operand. -/

namespace Sys2Proof.Machine

/-- `zext_16` of a byte (00_scope.md R9). -/
def zext16 (b : Byte) : Word := b.setWidth 16

/-- `zext_16(NNN)`: the address immediate (30_encoding.md R93). -/
def zextAddr (nnn : BitVec 12) : Word := nnn.setWidth 16

/-- `add16(a, b)` (00_scope.md R10). -/
def add16 (a b : Word) : Word := a + b

/-- V0, the implicit operand of `BNNN`. -/
def v0Idx : RegIdx := 0

/-- VF, the flag register (10_state.md R22). -/
def vfIdx : RegIdx := 15

/-- A key number as the content of a register. -/
def keyByte (k : Key) : Byte := BitVec.ofNat 8 k.val

/-- "pressed key == VX": all 8 bits are compared and no key equals nothing (44_keypad.md R211). -/
def keyMatches (key : Option Key) (b : Byte) : Bool :=
  match key with
  | none => false
  | some k => decide (b.toNat = k.val)

/-- The address of the glyph a byte names, `VX * 5` (42_index_memory.md R173). -/
def glyphAddr (b : Byte) : Word := BitVec.ofNat 16 (b.toNat * 5)

/-- Hundreds, tens and units of a byte (42_index_memory.md R176). -/
def decimalDigits (b : Byte) : List Byte :=
  [BitVec.ofNat 8 (b.toNat / 100), BitVec.ofNat 8 (b.toNat / 10 % 10), BitVec.ofNat 8 (b.toNat % 10)]

/-- V0 to VX inclusive, in ascending order (42_index_memory.md R178, R180). -/
def regsUpTo (x : RegIdx) : List RegIdx := (List.finRange 16).take (x.val + 1)

end Sys2Proof.Machine
end

