-- ==== Sys2Proof/Machine/Ops.lean ====
section
/-! DEFINITION. Machine/Ops.lean: the named operations over the state: one setter for each field, the registers, MEM,
the stack, the events, completing an instruction, and taking a fault (60_exceptions.md R245). -/

namespace Sys2Proof.Machine

/-- What every step and every meaning answers. -/
abbrev Outcome := Host.Outcome State Fault Refusal

/-! One setter for each field that a step writes. -/

def State.setRegs (s : State) (a : Vector Byte 16) : State := { s with v := a }
def State.setI (s : State) (a : Word) : State := { s with i := a }
def State.setPc (s : State) (a : Word) : State := { s with pc := a }
def State.setStack (s : State) (a : List Word) : State := { s with stack := a }
def State.setMem (s : State) (a : Memory) : State := { s with mem := a }
def State.setFb (s : State) (a : Framebuffer) : State := { s with fb := a }
def State.setDt (s : State) (a : Byte) : State := { s with dt := a }
def State.setSt (s : State) (a : Byte) : State := { s with st := a }
def State.setKey (s : State) (a : Option Key) : State := { s with key := a }
def State.setCycles (s : State) (a : Nat) : State := { s with cycles := a }
def State.setRun (s : State) (a : RunState) : State := { s with run := a }
def State.setWait (s : State) (a : RegIdx) : State := { s with wait := a }
def State.setPause (s : State) (a : Bool) : State := { s with pause := a }
def State.setStop (s : State) (a : Bool) : State := { s with stop := a }
def State.setStarted (s : State) (a : Bool) : State := { s with started := a }
def State.setDraws (s : State) (a : Nat) : State := { s with draws := a }
def State.setAgenda (s : State) (a : List Turn) : State := { s with agenda := a }
def State.setSchedule (s : State) (a : Schedule) : State := { s with schedule := a }
def State.setEvents (s : State) (a : List OutEvent) : State := { s with events := a }
def State.setFbReplies (s : State) (a : List Bool) : State := { s with fbReplies := a }

/-! The general registers (10_state.md R21): no register is hard-wired, banked or aliased. -/

/-- `V[x]`. -/
def State.getV (s : State) (x : RegIdx) : Byte := s.v[x.val]

/-- `V[x] <- b`. -/
def State.setV (s : State) (x : RegIdx) (b : Byte) : State := s.setRegs (s.v.set x.val b)

/-! MEM (20_memory.md R61, R62). -/

/-- The byte at an address, in range or not. -/
def State.byteAt (s : State) (a : Nat) : Byte := Memory.read s.cfg s.mem a

/-- `MemRead(a)`. -/
def memRead (s : State) (a : Nat) : Except CpuFault Byte :=
  if a < s.cfg.memSize then .ok (s.byteAt a) else .error (.outOfBounds a)

/-- `MemWrite(a, b)`. -/
def memWrite (s : State) (a : Nat) (b : Byte) : Except CpuFault State :=
  if a < s.cfg.memSize then .ok (s.setMem (Memory.write s.cfg s.mem a b)) else .error (.outOfBounds a)

/-! The call stack (10_state.md R26, R27). -/

/-- Whether a finite `STACK_DEPTH` leaves no room. -/
def State.stackFull (s : State) : Bool :=
  match s.cfg.stackDepth with
  | none => false
  | some d => decide (d ≤ s.stack.length)

/-- `push(a)`. -/
def push (s : State) (a : Word) : Except CpuFault State :=
  if s.stackFull then .error .stackOverflow else .ok (s.setStack (a :: s.stack))

/-- `pop()`: the popped value and the state after. -/
def pop (s : State) : Except CpuFault (Word × State) :=
  match s.stack with
  | [] => .error .stackUnderflow
  | a :: rest => .ok (a, s.setStack rest)

/-! Events (10_state.md R45). -/

/-- Whether the environment is bound to an event (R45; log 16). A fault report always is. -/
def eventBound (c : Config) : OutEvent → Bool
  | .toneOn => c.soundCbBound
  | .toneOff => c.soundCbBound
  | .delayZero => c.delayCbBound
  | .fault _ _ => true

/-- `emit e`. -/
def State.emit (s : State) (e : OutEvent) : State :=
  if eventBound s.cfg e then s.setEvents (s.events ++ [e]) else s

/-! The end of an instruction. -/

/-- The last action of a completed instruction: `CYCLES <- min(CYCLES + 1, CYCLE_MAX)` (40_control_flow.md R120). -/
def complete (s : State) : Outcome := .next (s.setCycles (min (s.cycles + 1) s.cfg.cycleMax))

/-- The diagnostic snapshot (10_state.md R47). -/
def State.snapshot (s : State) : Snapshot where
  cycles := s.cycles
  v := s.v
  i := s.i
  pc := s.pc
  stack := s.stack
  dt := s.dt
  st := s.st

/-- Taking a fault, the trap entry of this machine (60_exceptions.md R245, R246): RUN is HALTED(f) and the fault is
reported with the snapshot taken at the raise. Nothing else changes: no handler, no saved PC. There is no return from
it (R249); the one way out is the host's reset, `hostReset`. -/
def enterFault (f : CpuFault) (s : State) : State := (s.setRun (.halted f)).emit (.fault f s.snapshot)

/-- A meaning that ends in a fault: the step ends there, CYCLES not incremented (log 6). -/
def raise (f : CpuFault) (s : State) : Outcome := .next (enterFault f s)

/-- The numeric code of a fault (R240): a label of the spec's own that nothing reads. -/
def CpuFault.code : CpuFault → Nat
  | .unknownOpcode _ => 1
  | .outOfBounds _ => 2
  | .stackUnderflow => 3
  | .stackOverflow => 4

/-- `reset` (70_reset_and_hazards.md R280): the way out of HALTED and STOPPED (60_exceptions.md R249). Every piece of the
block's state takes its reset value; the host lowers `stop` with it and keeps `pause` (log 12); the parameters, the
model's draws, agenda and schedule, and what the environment has already seen are not the block's and stay. -/
def hostReset (s : State) : State :=
  { State.reset with
    cfg := s.cfg, pause := s.pause, draws := s.draws, agenda := s.agenda, schedule := s.schedule, events := s.events,
    fbReplies := s.fbReplies }

/-! Instructions that access memory byte by byte. -/

/-- How the accesses of an instruction end: all done, or stopped at the first that raised, with what was done before it
(42_index_memory.md R177). -/
inductive Flow where
  | done (s : State)
  | raised (f : CpuFault) (s : State)
  deriving DecidableEq, Repr

/-- The end of an instruction whose accesses ended so. -/
def Flow.finish : Flow → Outcome
  | .done s => complete s
  | .raised f s => raise f s

/-- `MemWrite` of bytes at consecutive addresses from `a`, in ascending order. The address has no 16-bit wrap
(20_memory.md R70). -/
def storeBytes (a : Nat) : List Byte → State → Flow
  | [], s => .done s
  | b :: bs, s =>
    match memWrite s a b with
    | .error f => .raised f s
    | .ok s' => storeBytes (a + 1) bs s'

/-- `V[r] <- MemRead` of consecutive addresses from `a`, in ascending order. -/
def loadBytes (a : Nat) : List RegIdx → State → Flow
  | [], s => .done s
  | r :: rs, s =>
    match memRead s a with
    | .error f => .raised f s
    | .ok b => loadBytes (a + 1) rs (s.setV r b)

/-- The rows of a draw (43_display.md R197): `n` rows whose bytes lie from `a` on, drawn from row `y` on. The fault is
the one of the first row whose byte lies outside MEM. -/
def drawRows (s : State) (x0 : Nat) : Nat → Nat → Nat → Canvas → Canvas × Option CpuFault
  | _, _, 0, c => (c, none)
  | a, y, n + 1, c =>
    match memRead s a with
    | .error f => (c, some f)
    | .ok b => drawRows s x0 (a + 1) (y + 1) n (drawRow x0 y b c)

/-! Small shared operations. -/

/-- The second advance of a skip that is taken (40_control_flow.md R121). -/
def skipIf (c : Bool) (s : State) : State := if c then s.setPc (add16 s.pc 2) else s

/-- `rand8()`: one sample of the input `rand` (41_alu.md R152; log 3). -/
def rand8 (s : State) : Byte × State := (Config.randByte s.draws, s.setDraws (s.draws + 1))

end Sys2Proof.Machine
end

