-- ==== Sys2Proof/Machine/Alu.lean ====
section
/-! DEFINITION. Machine/Alu.lean: the meanings of 41_alu.md. The order of the two writes of the flag-writing forms is
that of R141 (log 18). -/

namespace Sys2Proof.Machine

/-- `6XNN`, R142. -/
def execLdImm (x : RegIdx) (nn : Byte) (s : State) : Outcome := complete (s.setV x nn)

/-- `7XNN`, R143: no flag. -/
def execAddImm (x : RegIdx) (nn : Byte) (s : State) : Outcome := complete (s.setV x (add8 (s.getV x) nn).1)

/-- `8XY0`, R144. -/
def execLdReg (x y : RegIdx) (s : State) : Outcome := complete (s.setV x (s.getV y))

/-- `8XY1`, R145: no flag. -/
def execOrReg (x y : RegIdx) (s : State) : Outcome := complete (s.setV x (s.getV x ||| s.getV y))

/-- `8XY2`, R146: no flag. -/
def execAndReg (x y : RegIdx) (s : State) : Outcome := complete (s.setV x (s.getV x &&& s.getV y))

/-- `8XY3`, R147: no flag. -/
def execXorReg (x y : RegIdx) (s : State) : Outcome := complete (s.setV x (s.getV x ^^^ s.getV y))

/-- `8XY4`, R148: the sum, then the carry. -/
def execAddReg (x y : RegIdx) (s : State) : Outcome :=
  let r := add8 (s.getV x) (s.getV y)
  complete ((s.setV x r.1).setV vfIdx (flagByte r.2))

/-- `8XY5`, R149: the difference, then the complement of the borrow. -/
def execSubReg (x y : RegIdx) (s : State) : Outcome :=
  let r := sub8 (s.getV x) (s.getV y)
  complete ((s.setV x r.1).setV vfIdx (flagByte (!r.2)))

/-- `8XY6`, R150: the flag, then the shift of what VX then holds; Y is ignored (30_encoding.md R99). -/
def execShrReg (x _y : RegIdx) (s : State) : Outcome :=
  let s' := s.setV vfIdx (lowBit (s.getV x))
  complete (s'.setV x (shiftRight1 (s'.getV x)))

/-- `8XY7`, R151: the reverse difference, then the complement of the borrow. -/
def execSubnReg (x y : RegIdx) (s : State) : Outcome :=
  let r := sub8 (s.getV y) (s.getV x)
  complete ((s.setV x r.1).setV vfIdx (flagByte (!r.2)))

/-- `8XYE`, R153: the flag, then the shift of what VX then holds; Y is ignored. -/
def execShlReg (x _y : RegIdx) (s : State) : Outcome :=
  let s' := s.setV vfIdx (highBit (s.getV x))
  complete (s'.setV x (shiftLeft1 (s'.getV x)))

/-- `CXNN`, R154: exactly one draw. -/
def execRnd (x : RegIdx) (nn : Byte) (s : State) : Outcome :=
  let r := rand8 s
  complete (r.2.setV x (nn &&& r.1))

end Sys2Proof.Machine
end

