-- ==== Sys2Proof/Machine/ControlFlow.lean ====
section
/-! DEFINITION. Machine/ControlFlow.lean: the meanings of 40_control_flow.md. Each is the Operation of its rule, run
after the fetch has advanced PC (R120). -/

namespace Sys2Proof.Machine

/-- `0NNN`, R122: always `UnknownOpcode` of the word itself. -/
def execSys (nnn : BitVec 12) (s : State) : Outcome := raise (.unknownOpcode (zextAddr nnn)) s

/-- `00EE`, R123. -/
def execRet (s : State) : Outcome :=
  match pop s with
  | .error f => raise f s
  | .ok (a, s') => complete (s'.setPc a)

/-- `1NNN`, R124. -/
def execJp (nnn : BitVec 12) (s : State) : Outcome := complete (s.setPc (zextAddr nnn))

/-- `2NNN`, R125: the pushed PC is the advanced one. -/
def execCall (nnn : BitVec 12) (s : State) : Outcome :=
  match push s s.pc with
  | .error f => raise f s
  | .ok s' => complete (s'.setPc (zextAddr nnn))

/-- `3XNN`, R126. -/
def execSeImm (x : RegIdx) (nn : Byte) (s : State) : Outcome := complete (skipIf (s.getV x == nn) s)

/-- `4XNN`, R127. -/
def execSneImm (x : RegIdx) (nn : Byte) (s : State) : Outcome := complete (skipIf (s.getV x != nn) s)

/-- `5XY0`, R128. -/
def execSeReg (x y : RegIdx) (s : State) : Outcome := complete (skipIf (s.getV x == s.getV y) s)

/-- `9XY0`, R129. -/
def execSneReg (x y : RegIdx) (s : State) : Outcome := complete (skipIf (s.getV x != s.getV y) s)

/-- `BNNN`, R130: the sum is not reduced to 12 bits. -/
def execJpV0 (nnn : BitVec 12) (s : State) : Outcome :=
  complete (s.setPc (add16 (zext16 (s.getV v0Idx)) (zextAddr nnn)))

end Sys2Proof.Machine
end

