-- ==== Sys2Proof/Machine/DisplayInstrs.lean ====
section
/-! DEFINITION. Machine/DisplayInstrs.lean: the meanings of 43_display.md. -/

namespace Sys2Proof.Machine

/-- `00E0`, R196. -/
def execCls (s : State) : Outcome := complete (s.setFb fbReset)

/-- `DXYN`, R197: the position is read once, VF is written last, and not at all when a row's byte is out of bounds. -/
def execDrw (x y : RegIdx) (n : Fin 16) (s : State) : Outcome :=
  match drawRows s (s.getV x).toNat s.i.toNat (s.getV y).toNat n.val { fb := s.fb, hit := false } with
  | (c, none) => complete ((s.setFb c.fb).setV vfIdx (flagByte c.hit))
  | (c, some f) => raise f (s.setFb c.fb)

end Sys2Proof.Machine
end

