-- ==== Sys2Proof/Machine/IndexMemory.lean ====
section
/-! DEFINITION. Machine/IndexMemory.lean: the meanings of 42_index_memory.md. Only the first three write I (R170). -/

namespace Sys2Proof.Machine

/-- `ANNN`, R171. -/
def execLdI (nnn : BitVec 12) (s : State) : Outcome := complete (s.setI (zextAddr nnn))

/-- `FX1E`, R172: 16-bit wrap, no flag. -/
def execAddIVx (x : RegIdx) (s : State) : Outcome := complete (s.setI (add16 s.i (zext16 (s.getV x))))

/-- `FX29`, R173: all 8 bits of VX are used. -/
def execLdFVx (x : RegIdx) (s : State) : Outcome := complete (s.setI (glyphAddr (s.getV x)))

/-- `FX33`, R176. -/
def execLdBVx (x : RegIdx) (s : State) : Outcome := (storeBytes s.i.toNat (decimalDigits (s.getV x)) s).finish

/-- `FX55`, R178: X + 1 bytes. -/
def execStoreRegs (x : RegIdx) (s : State) : Outcome :=
  (storeBytes s.i.toNat ((regsUpTo x).map s.getV) s).finish

/-- `FX65`, R180: X + 1 bytes. -/
def execLoadRegs (x : RegIdx) (s : State) : Outcome := (loadBytes s.i.toNat (regsUpTo x) s).finish

end Sys2Proof.Machine
end

