-- ==== Sys2Proof/Machine/Keypad.lean ====
section
/-! DEFINITION. Machine/Keypad.lean: the key latch and the meanings of 44_keypad.md. -/

namespace Sys2Proof.Machine

/-- `key_down(k)`, R210: replaces whatever is latched. -/
def keyDown (k : Key) (s : State) : State := s.setKey (some k)

/-- `key_up`, R210: clears the latch whichever key it held. -/
def keyUp (s : State) : State := s.setKey none

/-- `EX9E`, R212. -/
def execSkp (x : RegIdx) (s : State) : Outcome := complete (skipIf (keyMatches s.key (s.getV x)) s)

/-- `EXA1`, R213: the exact complement. -/
def execSknp (x : RegIdx) (s : State) : Outcome := complete (skipIf (!keyMatches s.key (s.getV x)) s)

/-- `FX0A`, R214, inside the instruction step: the instruction stays open, so CYCLES is not incremented yet. -/
def execLdVxK (x : RegIdx) (s : State) : Outcome := .next ((s.setRun .waitKey).setWait x)

/-- The poll step of a waiting `FX0A`, R214. Its stop branch is the stop transition (Machine/Cpu.lean). -/
def pollStep (s : State) : Outcome :=
  match s.key with
  | none => .next s
  | some k => complete ((s.setV s.wait (keyByte k)).setRun .running)

end Sys2Proof.Machine
end

