-- ==== Sys2Proof/Machine/Timers.lean ====
section
/-! DEFINITION. Machine/Timers.lean: the dual countdown timer and the meanings of 45_timers.md. -/

namespace Sys2Proof.Machine

/-- `set_value(b)` of the delay timer, R221: nothing but the write. -/
def setDelay (b : Byte) (s : State) : State := s.setDt b

/-- `set_value(b)` of the sound timer, R221: `tone_on` for every value, zero included. -/
def setSound (b : Byte) (s : State) : State := (s.setSt b).emit .toneOn

/-- `decrement()` of the delay timer, R222. -/
def delayTick (s : State) : State := if s.dt ≠ 0 then s.setDt (s.dt - 1) else s.emit .delayZero

/-- `decrement()` of the sound timer, R222. -/
def soundTick (s : State) : State := if s.st ≠ 0 then s.setSt (s.st - 1) else s.emit .toneOff

/-- One tick, the step of the TIMER agent, R222: delay first, then sound. -/
def tick (s : State) : State := soundTick (delayTick s)

/-- `FX07`, R227. -/
def execLdVxDT (x : RegIdx) (s : State) : Outcome := complete (s.setV x s.dt)

/-- `FX15`, R228. -/
def execLdDTVx (x : RegIdx) (s : State) : Outcome := complete (setDelay (s.getV x) s)

/-- `FX18`, R229. -/
def execLdSTVx (x : RegIdx) (s : State) : Outcome := complete (setSound (s.getV x) s)

end Sys2Proof.Machine
end

