-- ==== Sys2Proof/Machine/Cpu.lean ====
section
/-! DEFINITION. Machine/Cpu.lean: the steps of the CPU agent: fetch (20_memory.md R64), the instruction step
(40_control_flow.md R120), and which of its steps is enabled (60_exceptions.md R252, R253, R261). -/

namespace Sys2Proof.Machine

/-- `Fetch()`, R64: two reads in ascending order, PC advanced only after both. -/
def fetch (s : State) : Except CpuFault (Word × State) :=
  match memRead s s.pc.toNat with
  | .error f => .error f
  | .ok hi =>
    match memRead s (s.pc.toNat + 1) with
    | .error f => .error f
    | .ok lo => .ok (wordOfBytes hi lo, s.setPc (add16 s.pc 2))

/-- The instruction step, R120; the order of its faults is 60_exceptions.md R248. -/
def instructionStep (s : State) : Outcome :=
  match fetch (s.setStarted true) with
  | .error f => raise f (s.setStarted true)
  | .ok (w, s') =>
    match decodeWord w with
    | .error _ => raise (.unknownOpcode w) s'
    | .ok i => exec i s'

/-- The CPU step that is enabled, or why there is none. -/
inductive CpuMove where
  | instruction
  | poll
  /-- The transition to STOPPED (60_exceptions.md R252), enabled whatever `pause` is (R253). -/
  | stopNow
  | idle (why : Fault)
  deriving DecidableEq, Repr

/-- The CPU column of the table of 60_exceptions.md R261. -/
def cpuMove (s : State) : CpuMove :=
  match s.run with
  | .running => if s.stop then .stopNow else if s.pause then .idle .cpuHeld else .instruction
  | .waitKey => if s.stop then .stopNow else if s.pause then .idle .cpuHeld else .poll
  | .halted f => .idle (.cpuHalted f)
  | .stopped => .idle .cpuStopped

/-- One step of the CPU agent. -/
def cpuStep (s : State) : Outcome :=
  match cpuMove s with
  | .instruction => instructionStep s
  | .poll => pollStep s
  | .stopNow => .next (s.setRun .stopped)
  | .idle why => .fault why

/-- A CPU turn of the agenda or the schedule: one step, or nothing when none is enabled (log 5). -/
def cpuTurn (s : State) : Outcome :=
  match cpuMove s with
  | .idle _ => .next s
  | _ => cpuStep s

end Sys2Proof.Machine
end

