-- ==== Sys2Proof/Machine/Agents.lean ====
section
/-! DEFINITION. Machine/Agents.lean: the operations of the HOST agent with the duties of 60_exceptions.md R263, and one
turn of any agent. -/

namespace Sys2Proof.Machine

/-- Whether the CPU has no step for good (60_exceptions.md R261, the last two rows). -/
def runEnded (s : State) : Bool :=
  match s.run with
  | .running => false
  | .waitKey => false
  | .halted _ => true
  | .stopped => true

/-- The duty on `reset`, R263: before the run starts, or with `pause = 1`, or in HALTED or STOPPED. -/
def resetAllowed (s : State) : Bool := !s.started || s.pause || runEnded s

/-- The duty on `load`, R263: after reset and before the first instruction step; R261 gives HALTED and STOPPED no `load`
(log 14). -/
def loadAllowed (s : State) : Bool := !s.started && !runEnded s

/-- One operation of the HOST agent. -/
def hostStep (op : HostOp) (s : State) : Outcome :=
  match op with
  | .reset => if resetAllowed s then .next (hostReset s) else .refused .resetWhileRunning
  | .load bytes =>
    if loadAllowed s then .next (s.setMem (Memory.load s.cfg s.mem bytes)) else .refused .loadOutsideBoot
  | .keyDown k => .next (keyDown k s)
  | .keyUp => .next (keyUp s)
  | .setPause level => .next (s.setPause level)
  | .setStop => .next (s.setStop true)
  | .fbRead x y => .next (s.setFbReplies (s.fbReplies ++ [fbRead s.fb x y]))

/-- One turn of the agent it names. A tick is enabled in every run state (45_timers.md R226). -/
def takeTurn (t : Turn) (s : State) : Outcome :=
  match t with
  | .cpu => cpuTurn s
  | .tick => .next (tick s)
  | .host op => hostStep op s

/-- The turn that is due and the state in which it is taken off the agenda or the schedule; none when only the CPU has
turns left (log 4). -/
def nextTurn (s : State) : Option (Turn × State) :=
  match s.agenda, s.schedule with
  | t :: rest, _ => some (t, s.setAgenda rest)
  | [], .repeating (t :: rest) => some (t, s.setAgenda rest)
  | [], .repeating [] => none
  | [], .free n => some (Config.freeTurn n, s.setSchedule (.free (n + 1)))

/-- `s` with an instruction's 16 bits stored where the next fetch reads, and everything else set so that the next step is
that instruction step: only the CPU's turns left, RUNNING, not paused, not stopped (log 23). -/
def placeFetchWord (s : State) (nbits w : Nat) : State :=
  let word : Word := BitVec.ofNat 16 (w % 2 ^ nbits)
  let m := Memory.write s.cfg s.mem s.pc.toNat (hiByte word)
  let m' := Memory.write s.cfg m (s.pc.toNat + 1) (loByte word)
  (((((s.setMem m').setRun .running).setPause false).setStop false).setAgenda []).setSchedule (.repeating [])

end Sys2Proof.Machine
end

