-- ==== Sys2Proof/Machine/Step.lean ====
section
/-! DEFINITION. Machine/Step.lean: one step of the whole machine. The agenda, and after it the schedule, say whose turn it
is (log 4). -/

namespace Sys2Proof.Machine

def step (s : State) : Host.Outcome State Fault Refusal :=
  match nextTurn s with
  | none => cpuStep s
  | some (t, u) => takeTurn t u

/-- The state in which the next step fetches and runs the given instruction word. -/
def State.withFetchWord (s : State) (nbits w : Nat) : State := placeFetchWord s nbits w

end Sys2Proof.Machine
end

