-- ==== Sys2Proof/Safety.lean ====
section
/-! DEFINITION. Safety.lean: the terms in which claims about the machine are stated: frames, what a draw covers, runs, and
the invariant of every step. -/

namespace Sys2Proof.Machine

/-! Frames: what a step leaves unchanged. -/

/-- The pieces of state a frame speaks of: the block's own, the levels, the parameters, and the model's fields. -/
inductive Part where
  | cfg | regs | i | pc | stack | mem | fb | dt | st | key | cycles | run | wait
  | pause | stop | started | draws | agenda | schedule | events | fbReplies
  deriving DecidableEq, Repr

/-- `t` has the same content as `s` in one piece of state. Registers, memory and pixels are compared by reading them. -/
def Part.same : Part → State → State → Prop
  | .cfg, s, t => t.cfg = s.cfg
  | .regs, s, t => ∀ r : RegIdx, t.getV r = s.getV r
  | .i, s, t => t.i = s.i
  | .pc, s, t => t.pc = s.pc
  | .stack, s, t => t.stack = s.stack
  | .mem, s, t => ∀ a : Nat, t.byteAt a = s.byteAt a
  | .fb, s, t => ∀ x y : Nat, fbRead t.fb x y = fbRead s.fb x y
  | .dt, s, t => t.dt = s.dt
  | .st, s, t => t.st = s.st
  | .key, s, t => t.key = s.key
  | .cycles, s, t => t.cycles = s.cycles
  | .run, s, t => t.run = s.run
  | .wait, s, t => t.wait = s.wait
  | .pause, s, t => t.pause = s.pause
  | .stop, s, t => t.stop = s.stop
  | .started, s, t => t.started = s.started
  | .draws, s, t => t.draws = s.draws
  | .agenda, s, t => t.agenda = s.agenda
  | .schedule, s, t => t.schedule = s.schedule
  | .events, s, t => t.events = s.events
  | .fbReplies, s, t => t.fbReplies = s.fbReplies

/-- `t` agrees with `s` in every piece of state but the named ones. -/
def KeepsAllBut (ps : List Part) (s t : State) : Prop := ∀ p : Part, p ∉ ps → p.same s t

/-- Every general register but the named ones is unchanged. -/
def KeepsRegsBut (rs : List RegIdx) (s t : State) : Prop := ∀ r : RegIdx, r ∉ rs → t.getV r = s.getV r

/-- Every byte of memory outside `len` bytes from `base` on reads as before. -/
def KeepsMemOutside (base len : Nat) (s t : State) : Prop :=
  ∀ a : Nat, a < base ∨ base + len ≤ a → t.byteAt a = s.byteAt a

/-- The cycle counter has counted one completed instruction (10_state.md R34). -/
def CountsOne (s t : State) : Prop := t.cycles = min (s.cycles + 1) s.cfg.cycleMax

/-- `t` is what `s` became when fault `f` was raised: the CPU is halted, and the report appended to the events carries
the snapshot at the raise, after which nothing changes (60_exceptions.md R245, R246). -/
def TakesFault (f : CpuFault) (s t : State) : Prop :=
  t.run = .halted f ∧
    t.events = s.events ++ [.fault f ⟨t.cycles, t.v, t.i, t.pc, t.stack, t.dt, t.st⟩]

/-- The given turn is due at `s`, and `u` is `s` with that turn taken: it stands at the head of the agenda; or the agenda
is empty, and it is the first of the turns that repeat, or the next of a free schedule (log 4). -/
def TurnDue (s : State) (turn : Turn) (u : State) : Prop :=
  (∃ rest, s.agenda = turn :: rest ∧ u = s.setAgenda rest) ∨
  (s.agenda = [] ∧ ∃ rest, s.schedule = .repeating (turn :: rest) ∧ u = s.setAgenda rest) ∨
  (s.agenda = [] ∧ ∃ n, s.schedule = .free n ∧ turn = Config.freeTurn n ∧ u = s.setSchedule (.free (n + 1)))

/-- Only the CPU has turns left (log 4). -/
def CpuAlone (s : State) : Prop := s.agenda = [] ∧ s.schedule = .repeating []

/-- It is the CPU's turn at `s`, and `u` is `s` with that turn taken. -/
def CpuTurn (s u : State) : Prop := (CpuAlone s ∧ u = s) ∨ TurnDue s .cpu u

/-- It is the CPU's turn and an instruction step is enabled (40_control_flow.md R120); `u` as in `CpuTurn`. -/
def CpuMayRun (s u : State) : Prop := CpuTurn s u ∧ u.run = .running ∧ u.pause = false ∧ u.stop = false

/-- The word at PC. -/
def wordAtPc (s : State) : Word := wordOfBytes (s.byteAt s.pc.toNat) (s.byteAt (s.pc.toNat + 1))

/-- A fetch reads the memory of `t`: in `t`, and in every later state that kept its memory, at whatever PC whose two
bytes exist, the fetched word is the byte at PC and then the one at PC + 1, and PC moves past both (20_memory.md R64,
R72). -/
def FetchReadsMemoryOf (t : State) : Prop :=
  ∀ u : State, u.cfg = t.cfg → (∀ a : Nat, u.byteAt a = t.byteAt a) → u.pc.toNat + 1 < u.cfg.memSize →
    fetch u = .ok (wordOfBytes (t.byteAt u.pc.toNat) (t.byteAt (u.pc.toNat + 1)), u.setPc (u.pc + 2))

/-- No room on a finite stack (10_state.md R27). -/
def StackIsFull (s : State) : Prop := ∃ d, s.cfg.stackDepth = some d ∧ d ≤ s.stack.length

/-! Draws (43_display.md R195, R199). -/

/-- Bit (r, c) of the sprite at I: byte r, the most significant bit leftmost. -/
def SpriteBitSet (s : State) (r c : Nat) : Prop := (s.byteAt (s.i.toNat + r)).getLsbD (7 - c) = true

/-- Some set bit of the `n`-row sprite drawn at (x0, y0) lands on the framebuffer cell of (x, y). -/
def SpriteCovers (s : State) (x0 y0 n x y : Nat) : Prop :=
  ∃ r c, r < n ∧ c < 8 ∧ SpriteBitSet s r c ∧ (x0 + c) % 64 = x % 64 ∧ (y0 + r) % 32 = y % 32

/-- A set bit of the sprite lands on a pixel that is set (R199). -/
def SpriteCollides (s : State) (x0 y0 n : Nat) : Prop :=
  ∃ r c, r < n ∧ c < 8 ∧ SpriteBitSet s r c ∧ fbRead s.fb (x0 + c) (y0 + r) = true

/-! Ticks and runs. -/

/-- `n` ticks in a row. -/
def ticks : Nat → State → State
  | 0, s => s
  | n + 1, s => ticks n (tick s)

/-- How often an event was emitted. -/
def emitted (e : OutEvent) (s : State) : Nat := s.events.count e

/-- `t` is reached from `s` by some number of steps of the machine. -/
inductive Steps : State → State → Prop
  | refl (s : State) : Steps s s
  | tail {s t u : State} : Steps s t → step t = .next u → Steps s u

/-! Schedules (60_exceptions.md R262). -/

/-- The given turn comes again and again, for ever, after the agenda. -/
def Recurs (turn : Turn) (s : State) : Prop :=
  match s.schedule with
  | .repeating turns => turn ∈ turns
  | .free n => ∀ m, n ≤ m → ∃ k, m ≤ k ∧ Config.freeTurn k = turn

/-- Weak fairness of the CPU agent, the only assumption on the schedule that a liveness claim may use. -/
def CpuFair (s : State) : Prop := s.schedule = .repeating [] ∨ Recurs .cpu s

/-- Weak fairness of the TIMER agent: ticks keep coming, the additional assumption of a program that waits for DT. -/
def TimerFair (s : State) : Prop := Recurs .tick s

/-- The given turn never comes. -/
def NeverDue (turn : Turn) (s : State) : Prop :=
  turn ∉ s.agenda ∧
    match s.schedule with
    | .repeating turns => turn ∉ turns
    | .free n => ∀ k, n ≤ k → Config.freeTurn k ≠ turn

/-! The invariant. -/

/-- What every step keeps: the parameters are ones the spec admits, the memory list is canonical, the cycle counter does
not pass its saturation value, the stack fits a finite depth, a halt was reported, and a CPU that took no instruction
step since reset neither waits for a key nor is halted. -/
structure State.Inv (s : State) : Prop where
  cfgValid : s.cfg.valid = true
  memCanonical : Memory.wf s.cfg s.mem = true
  cyclesSaturate : s.cycles ≤ s.cfg.cycleMax
  stackFits : ∀ d, s.cfg.stackDepth = some d → s.stack.length ≤ d
  haltReported : ∀ f, s.run = .halted f → ∃ snap, OutEvent.fault f snap ∈ s.events
  freshRun : s.started = false → s.run = .running ∨ s.run = .stopped

end Sys2Proof.Machine
end

