-- ==== Sys2Proof/Certificates/Slice0/Obligations.lean ====
section
/-! DEFINITION. Certificates/Slice0/Obligations.lean: the statements for the provers. Each docstring names the rule of
spec/ the statement formalises; where a clause rests on a decision of the spec or a choice of the model, it says so. -/

open Sys2Proof Sys2Proof.Machine

/-! ### Encoding -/

/-- Words written out from 30_encoding.md R95, one or more for each format, decode to the forms they stand for. -/
def Obligations.SampleWordsDecode : Prop :=
  decodeWord 0x0123 = .ok (.sys 0x123) ∧ decodeWord 0x00E0 = .ok .cls ∧ decodeWord 0x00EE = .ok .ret ∧
  decodeWord 0x2ABC = .ok (.call 0xABC) ∧ decodeWord 0x3A7F = .ok (.seImm 10 0x7F) ∧
  decodeWord 0x5AB0 = .ok (.seReg 10 11) ∧ decodeWord 0x5AB1 = .error (.illegal 0x5AB1) ∧
  decodeWord 0x8AB7 = .ok (.subnReg 10 11) ∧ decodeWord 0x8AF6 = .ok (.shrReg 10 15) ∧
  decodeWord 0x8AB8 = .error (.illegal 0x8AB8) ∧ decodeWord 0xD12F = .ok (.drw 1 2 15) ∧
  decodeWord 0xE19E = .ok (.skp 1) ∧ decodeWord 0xF10A = .ok (.ldVxK 1) ∧ decodeWord 0xFF55 = .ok (.storeRegs 15) ∧
  decodeWord 0xF1FF = .error (.illegal 0xF1FF)

/-- Decode and encode agree: every well-formed instruction, with every operand at every value, is read back from its word,
from its two bytes with anything after them. -/
def Obligations.DecodeInvertsEncode : Prop :=
  ∀ i : Instr, i.wf = true →
    decodeWord (encode i) = .ok i ∧
    ∀ rest : List Byte, decode (encodeBytes i ++ rest) = .ok (i, rest)

/-- No bit of a word is dropped: a word that decodes is the word of the instruction it decodes to, and that
instruction is well formed. -/
def Obligations.EncodeInvertsDecode : Prop :=
  ∀ (w : Word) (i : Instr), decodeWord w = .ok i → i.wf = true ∧ encode i = w

/-- The illegal words are exactly those of 30_encoding.md section 4, and a rejection names the word. -/
def Obligations.IllegalWordsExactly : Prop :=
  ∀ w : Word, (∀ r : Reject, decodeWord w = .error r → r = .illegal w) ∧
    ((∃ r : Reject, decodeWord w = .error r) ↔
      ((opField w = 0x5 ∨ opField w = 0x9) ∧ fn4Field w ≠ 0) ∨
      (opField w = 0x8 ∧ fn4Field w ∈ [0x8#4, 0x9, 0xA, 0xB, 0xC, 0xD, 0xF]) ∨
      (opField w = 0xE ∧ nnField w ∉ [0x9E#8, 0xA1]) ∨
      (opField w = 0xF ∧ nnField w ∉ [0x07#8, 0x0A, 0x15, 0x18, 0x1E, 0x29, 0x33, 0x55, 0x65]))

/-! ### The step -/

/-- A step runs the decoded instruction: when it is the CPU's turn and the word at PC decodes to `i`, the step is `exec i`
on the state whose PC is already past the word (40_control_flow.md section 1). Here and below `u` is `s` with the turn
that is due taken off the agenda or the schedule, which are the model's (log 4); `started` is the model's own monitor of
the host's duties (log 13). -/
def Obligations.StepRunsDecodedInstruction : Prop :=
  ∀ (s u : State) (i : Instr), CpuMayRun s u → u.pc.toNat + 1 < u.cfg.memSize → decodeWord (wordAtPc u) = .ok i →
    step s = exec i ((u.setStarted true).setPc (u.pc + 2))

/-- A fetch outside memory halts the CPU with PC still at the word that could not be fetched, the first unreadable byte
named (20_memory.md section 2, the spec's decision D11). -/
def Obligations.FetchFaultKeepsPc : Prop :=
  ∀ s u : State, CpuMayRun s u → u.cfg.memSize ≤ u.pc.toNat + 1 →
    ∃ t, step s = .next t ∧
      TakesFault (.outOfBounds (if u.pc.toNat < u.cfg.memSize then u.pc.toNat + 1 else u.pc.toNat)) u t ∧
      KeepsAllBut [.run, .events, .started] u t

/-- An illegal word, or a word of the form 0NNN, halts the CPU with PC past the word and nothing else changed
(60_exceptions.md section 1). -/
def Obligations.UnknownOpcodeHalts : Prop :=
  ∀ s u : State, CpuMayRun s u → u.pc.toNat + 1 < u.cfg.memSize →
    ((∃ r, decodeWord (wordAtPc u) = .error r) ∨ (∃ nnn, decodeWord (wordAtPc u) = .ok (.sys nnn))) →
    ∃ t, step s = .next t ∧ TakesFault (.unknownOpcode (wordAtPc u)) u t ∧ t.pc = u.pc + 2 ∧
      KeepsAllBut [.run, .events, .started, .pc] u t

/-! ### Control transfer, 40_control_flow.md -/

/-- R124, with its corner cases: any target is taken as it is and shows only at the next fetch, and a jump to its own
address changes nothing but CYCLES (and the model's `started`). -/
def Obligations.JumpLoadsPc : Prop :=
  ∀ nnn : BitVec 12, decodeWord (0x1#4 ++ nnn) = .ok (.jp nnn) ∧
    (∀ s : State, ∃ t, exec (.jp nnn) s = .next t ∧ t.pc.toNat = nnn.toNat ∧ CountsOne s t ∧
      KeepsAllBut [.pc, .cycles] s t ∧
      (s.cfg.memSize ≤ nnn.toNat + 1 → fetch t = .error (.outOfBounds (max nnn.toNat s.cfg.memSize)))) ∧
    (∀ s u : State, CpuMayRun s u → u.pc.toNat = nnn.toNat → u.pc.toNat + 1 < u.cfg.memSize →
      wordAtPc u = 0x1#4 ++ nnn →
      ∃ t, step s = .next t ∧ CountsOne u t ∧ KeepsAllBut [.cycles, .started] u t)

/-- R123: the top of the stack goes to PC as it is; an empty stack is the fault StackUnderflow. -/
def Obligations.ReturnPopsPc : Prop :=
  decodeWord 0x00EE = .ok .ret ∧
  (∀ (s : State) (a : Word) (rest : List Word), s.stack = a :: rest →
    ∃ t, exec .ret s = .next t ∧ t.pc = a ∧ t.stack = rest ∧ CountsOne s t ∧
      KeepsAllBut [.pc, .stack, .cycles] s t ∧
      (s.cfg.memSize ≤ a.toNat + 1 → fetch t = .error (.outOfBounds (max a.toNat s.cfg.memSize)))) ∧
  (∀ s : State, s.stack = [] →
    ∃ t, exec .ret s = .next t ∧ TakesFault .stackUnderflow s t ∧ KeepsAllBut [.run, .events] s t)

/-- R125: the advanced PC is pushed; a full finite stack is the fault StackOverflow, with PC and the stack unchanged. -/
def Obligations.CallPushesPc : Prop :=
  ∀ nnn : BitVec 12, decodeWord (0x2#4 ++ nnn) = .ok (.call nnn) ∧
    (∀ s : State, ¬ StackIsFull s →
      ∃ t, exec (.call nnn) s = .next t ∧ t.pc.toNat = nnn.toNat ∧ t.stack = s.pc :: s.stack ∧ CountsOne s t ∧
        KeepsAllBut [.pc, .stack, .cycles] s t) ∧
    (∀ s : State, StackIsFull s →
      ∃ t, exec (.call nnn) s = .next t ∧ TakesFault .stackOverflow s t ∧ KeepsAllBut [.run, .events] s t)

/-- R126 and R127: the skips on an immediate are exact complements. -/
def Obligations.ImmediateSkips : Prop :=
  ∀ (x : RegIdx) (nn : Byte),
    decodeWord (0x3#4 ++ fieldBits x ++ nn) = .ok (.seImm x nn) ∧
    decodeWord (0x4#4 ++ fieldBits x ++ nn) = .ok (.sneImm x nn) ∧
    ∀ s : State,
      (∃ t, exec (.seImm x nn) s = .next t ∧ CountsOne s t ∧ KeepsAllBut [.pc, .cycles] s t ∧
        t.pc = if s.getV x = nn then s.pc + 2 else s.pc) ∧
      (∃ t, exec (.sneImm x nn) s = .next t ∧ CountsOne s t ∧ KeepsAllBut [.pc, .cycles] s t ∧
        t.pc = if s.getV x = nn then s.pc else s.pc + 2)

/-- R128 and R129: the skips on two registers; the low nibble must be 0. -/
def Obligations.RegisterSkips : Prop :=
  ∀ x y : RegIdx,
    decodeWord (0x5#4 ++ fieldBits x ++ fieldBits y ++ 0#4) = .ok (.seReg x y) ∧
    decodeWord (0x9#4 ++ fieldBits x ++ fieldBits y ++ 0#4) = .ok (.sneReg x y) ∧
    (∀ n : BitVec 4, n ≠ 0 →
      decodeWord (0x5#4 ++ fieldBits x ++ fieldBits y ++ n) =
        .error (.illegal (0x5#4 ++ fieldBits x ++ fieldBits y ++ n)) ∧
      decodeWord (0x9#4 ++ fieldBits x ++ fieldBits y ++ n) =
        .error (.illegal (0x9#4 ++ fieldBits x ++ fieldBits y ++ n))) ∧
    ∀ s : State,
      (∃ t, exec (.seReg x y) s = .next t ∧ CountsOne s t ∧ KeepsAllBut [.pc, .cycles] s t ∧
        t.pc = if s.getV x = s.getV y then s.pc + 2 else s.pc) ∧
      (∃ t, exec (.sneReg x y) s = .next t ∧ CountsOne s t ∧ KeepsAllBut [.pc, .cycles] s t ∧
        t.pc = if s.getV x = s.getV y then s.pc else s.pc + 2)

/-- `BNNN`: V0 + NNN, not reduced to 12 bits (40_control_flow.md section 2, the spec's decision D25). -/
def Obligations.OffsetJumpAddsV0 : Prop :=
  ∀ (nnn : BitVec 12) (s : State),
    ∃ t, exec (.jpV0 nnn) s = .next t ∧ t.pc.toNat = (s.getV 0).toNat + nnn.toNat ∧ CountsOne s t ∧
      KeepsAllBut [.pc, .cycles] s t

/-- R122: every word of the form always faults with the word itself, and changes nothing else. -/
def Obligations.SystemCallAlwaysFaults : Prop :=
  ∀ nnn : BitVec 12, nnn ≠ 0x0E0 → nnn ≠ 0x0EE →
    decodeWord (0x0#4 ++ nnn) = .ok (.sys nnn) ∧
    ∀ s : State, ∃ t, exec (.sys nnn) s = .next t ∧ TakesFault (.unknownOpcode (0x0#4 ++ nnn)) s t ∧
      KeepsAllBut [.run, .events] s t

/-! ### Registers and the ALU, 41_alu.md -/

/-- R142 and R144: load immediate and register move. -/
def Obligations.LoadsWriteOneRegister : Prop :=
  ∀ x : RegIdx,
    (∀ nn : Byte, decodeWord (0x6#4 ++ fieldBits x ++ nn) = .ok (.ldImm x nn) ∧
      ∀ s : State, ∃ t, exec (.ldImm x nn) s = .next t ∧ t.getV x = nn ∧ KeepsRegsBut [x] s t ∧ CountsOne s t ∧
        KeepsAllBut [.regs, .cycles] s t) ∧
    (∀ y : RegIdx, decodeWord (0x8#4 ++ fieldBits x ++ fieldBits y ++ 0x0#4) = .ok (.ldReg x y) ∧
      ∀ s : State, ∃ t, exec (.ldReg x y) s = .next t ∧ t.getV x = s.getV y ∧ KeepsRegsBut [x] s t ∧ CountsOne s t ∧
        KeepsAllBut [.regs, .cycles] s t)

/-- R143: the sum modulo 256, and no flag. -/
def Obligations.AddImmediateWrapsWithoutFlag : Prop :=
  ∀ (x : RegIdx) (nn : Byte), decodeWord (0x7#4 ++ fieldBits x ++ nn) = .ok (.addImm x nn) ∧
    ∀ s : State, ∃ t, exec (.addImm x nn) s = .next t ∧
      (t.getV x).toNat = ((s.getV x).toNat + nn.toNat) % 256 ∧ KeepsRegsBut [x] s t ∧ CountsOne s t ∧
      KeepsAllBut [.regs, .cycles] s t

/-- `8XY1`, `8XY2`, `8XY3`: bit by bit, and VF is no flag of theirs (41_alu.md section 2, the spec's decision D5). -/
def Obligations.LogicIsBitwiseWithoutFlag : Prop :=
  ∀ (x y : RegIdx) (s : State),
    (∃ t, exec (.orReg x y) s = .next t ∧ KeepsRegsBut [x] s t ∧ CountsOne s t ∧ KeepsAllBut [.regs, .cycles] s t ∧
      ∀ k, (t.getV x).getLsbD k = ((s.getV x).getLsbD k || (s.getV y).getLsbD k)) ∧
    (∃ t, exec (.andReg x y) s = .next t ∧ KeepsRegsBut [x] s t ∧ CountsOne s t ∧ KeepsAllBut [.regs, .cycles] s t ∧
      ∀ k, (t.getV x).getLsbD k = ((s.getV x).getLsbD k && (s.getV y).getLsbD k)) ∧
    (∃ t, exec (.xorReg x y) s = .next t ∧ KeepsRegsBut [x] s t ∧ CountsOne s t ∧ KeepsAllBut [.regs, .cycles] s t ∧
      ∀ k, (t.getV x).getLsbD k = ((s.getV x).getLsbD k ^^ (s.getV y).getLsbD k))

/-- R148: the sum modulo 256, then the carry in VF; with X = F the carry stays (log 18). -/
def Obligations.AddCapturesCarry : Prop :=
  ∀ x y : RegIdx, decodeWord (0x8#4 ++ fieldBits x ++ fieldBits y ++ 0x4#4) = .ok (.addReg x y) ∧
    ∀ s : State, ∃ t, exec (.addReg x y) s = .next t ∧
      (x ≠ 15 → (t.getV x).toNat = ((s.getV x).toNat + (s.getV y).toNat) % 256) ∧
      t.getV 15 = (if (s.getV x).toNat + (s.getV y).toNat > 255 then 1 else 0) ∧
      KeepsRegsBut [x, 15] s t ∧ CountsOne s t ∧ KeepsAllBut [.regs, .cycles] s t

/-- R149: VX - VY modulo 256, then NOT borrow in VF; with X = F the flag stays (log 18). -/
def Obligations.SubtractCapturesNotBorrow : Prop :=
  ∀ x y : RegIdx, decodeWord (0x8#4 ++ fieldBits x ++ fieldBits y ++ 0x5#4) = .ok (.subReg x y) ∧
    ∀ s : State, ∃ t, exec (.subReg x y) s = .next t ∧
      (x ≠ 15 → (t.getV x).toNat = ((s.getV x).toNat + 256 - (s.getV y).toNat) % 256) ∧
      t.getV 15 = (if (s.getV x).toNat < (s.getV y).toNat then 0 else 1) ∧
      KeepsRegsBut [x, 15] s t ∧ CountsOne s t ∧ KeepsAllBut [.regs, .cycles] s t

/-- R151: VY - VX modulo 256, then NOT borrow in VF; with X = F the flag stays (log 18). -/
def Obligations.ReverseSubtractCapturesNotBorrow : Prop :=
  ∀ x y : RegIdx, decodeWord (0x8#4 ++ fieldBits x ++ fieldBits y ++ 0x7#4) = .ok (.subnReg x y) ∧
    ∀ s : State, ∃ t, exec (.subnReg x y) s = .next t ∧
      (x ≠ 15 → (t.getV x).toNat = ((s.getV y).toNat + 256 - (s.getV x).toNat) % 256) ∧
      t.getV 15 = (if (s.getV y).toNat < (s.getV x).toNat then 0 else 1) ∧
      KeepsRegsBut [x, 15] s t ∧ CountsOne s t ∧ KeepsAllBut [.regs, .cycles] s t

/-- `8XY6`: bit 0 to VF, then the shift in place; Y is ignored; with X = F the shift acts on the flag just written
(41_alu.md section 2, the spec's decision D4; log 18). -/
def Obligations.ShiftRightCapturesLowBit : Prop :=
  ∀ (x y : RegIdx) (s : State), ∃ t, exec (.shrReg x y) s = .next t ∧
    (x ≠ 15 → (t.getV x).toNat = (s.getV x).toNat / 2 ∧ (t.getV 15).toNat = (s.getV x).toNat % 2) ∧
    (x = 15 → t.getV 15 = 0) ∧
    KeepsRegsBut [x, 15] s t ∧ CountsOne s t ∧ KeepsAllBut [.regs, .cycles] s t

/-- `8XYE`: bit 7 to VF, then the shift in place; Y is ignored; with X = F the shift acts on the flag just written
(41_alu.md section 2, the spec's decision D4; log 18). -/
def Obligations.ShiftLeftCapturesHighBit : Prop :=
  ∀ (x y : RegIdx) (s : State), ∃ t, exec (.shlReg x y) s = .next t ∧
    (x ≠ 15 → (t.getV x).toNat = 2 * (s.getV x).toNat % 256 ∧ (t.getV 15).toNat = (s.getV x).toNat / 128) ∧
    (x = 15 → (t.getV 15).toNat = 2 * ((s.getV 15).toNat / 128)) ∧
    KeepsRegsBut [x, 15] s t ∧ CountsOne s t ∧ KeepsAllBut [.regs, .cycles] s t

/-- `CXNN`: NN masks exactly one draw, whatever its value. The draw is the model's free value `Config.randByte` of the
count of draws (41_alu.md section 2, the spec's decision D13; log 3). -/
def Obligations.RandomIsOneMaskedDraw : Prop :=
  ∀ (x : RegIdx) (nn : Byte) (s : State), ∃ t, exec (.rnd x nn) s = .next t ∧
    (∀ k, (t.getV x).getLsbD k = (nn.getLsbD k && (Config.randByte s.draws).getLsbD k)) ∧
    t.draws = s.draws + 1 ∧ KeepsRegsBut [x] s t ∧ CountsOne s t ∧ KeepsAllBut [.regs, .draws, .cycles] s t

/-! ### The address register and memory, 42_index_memory.md -/

/-- R171: I is loaded without any bounds check. -/
def Obligations.LoadIndexImmediate : Prop :=
  ∀ nnn : BitVec 12, decodeWord (0xA#4 ++ nnn) = .ok (.ldI nnn) ∧
    ∀ s : State, ∃ t, exec (.ldI nnn) s = .next t ∧ t.i.toNat = nnn.toNat ∧ CountsOne s t ∧
      KeepsAllBut [.i, .cycles] s t

/-- `FX1E` wraps at 16 bits without a flag and `FX29` uses all 8 bits of VX (42_index_memory.md section 2, the spec's
decision D24). -/
def Obligations.IndexArithmetic : Prop :=
  ∀ (x : RegIdx) (s : State),
    (∃ t, exec (.addIVx x) s = .next t ∧ t.i.toNat = (s.i.toNat + (s.getV x).toNat) % 65536 ∧ CountsOne s t ∧
      KeepsAllBut [.i, .cycles] s t) ∧
    (∃ t, exec (.ldFVx x) s = .next t ∧ t.i.toNat = (s.getV x).toNat * 5 ∧ CountsOne s t ∧
      KeepsAllBut [.i, .cycles] s t)

/-- R176: the three digits at I, I + 1, I + 2; at the first of them outside memory the fault, with the digits before it
stored (log 19). -/
def Obligations.DecimalDigitsStored : Prop :=
  ∀ x : RegIdx, decodeWord (0xF#4 ++ fieldBits x ++ 0x33#8) = .ok (.ldBVx x) ∧
    ∀ s : State,
      (s.i.toNat + 2 < s.cfg.memSize →
        ∃ t, exec (.ldBVx x) s = .next t ∧
          (t.byteAt s.i.toNat).toNat = (s.getV x).toNat / 100 ∧
          (t.byteAt (s.i.toNat + 1)).toNat = (s.getV x).toNat / 10 % 10 ∧
          (t.byteAt (s.i.toNat + 2)).toNat = (s.getV x).toNat % 10 ∧
          KeepsMemOutside s.i.toNat 3 s t ∧ CountsOne s t ∧ KeepsAllBut [.mem, .cycles] s t) ∧
      (s.cfg.memSize ≤ s.i.toNat + 2 →
        ∃ t, exec (.ldBVx x) s = .next t ∧ TakesFault (.outOfBounds (max s.i.toNat s.cfg.memSize)) s t ∧
          (s.i.toNat < s.cfg.memSize → (t.byteAt s.i.toNat).toNat = (s.getV x).toNat / 100) ∧
          (s.i.toNat + 1 < s.cfg.memSize → (t.byteAt (s.i.toNat + 1)).toNat = (s.getV x).toNat / 10 % 10) ∧
          KeepsMemOutside s.i.toNat (s.cfg.memSize - s.i.toNat) s t ∧ KeepsAllBut [.mem, .run, .events] s t)

/-- R178: V0 to VX at I to I + X; at the first address outside memory the fault, with the bytes before it stored
(log 19). -/
def Obligations.RegistersStored : Prop :=
  ∀ x : RegIdx, decodeWord (0xF#4 ++ fieldBits x ++ 0x55#8) = .ok (.storeRegs x) ∧
    ∀ s : State,
      (s.i.toNat + x.val < s.cfg.memSize →
        ∃ t, exec (.storeRegs x) s = .next t ∧
          (∀ r : RegIdx, r ≤ x → t.byteAt (s.i.toNat + r.val) = s.getV r) ∧
          KeepsMemOutside s.i.toNat (x.val + 1) s t ∧ CountsOne s t ∧ KeepsAllBut [.mem, .cycles] s t) ∧
      (s.cfg.memSize ≤ s.i.toNat + x.val →
        ∃ t, exec (.storeRegs x) s = .next t ∧ TakesFault (.outOfBounds (max s.i.toNat s.cfg.memSize)) s t ∧
          (∀ r : RegIdx, r ≤ x → s.i.toNat + r.val < s.cfg.memSize → t.byteAt (s.i.toNat + r.val) = s.getV r) ∧
          KeepsMemOutside s.i.toNat (s.cfg.memSize - s.i.toNat) s t ∧ KeepsAllBut [.mem, .run, .events] s t)

/-- R180: V0 to VX from I to I + X; at the first address outside memory the fault, with the registers before it
loaded (log 19). -/
def Obligations.RegistersLoaded : Prop :=
  ∀ x : RegIdx, decodeWord (0xF#4 ++ fieldBits x ++ 0x65#8) = .ok (.loadRegs x) ∧
    ∀ s : State,
      (s.i.toNat + x.val < s.cfg.memSize →
        ∃ t, exec (.loadRegs x) s = .next t ∧
          (∀ r : RegIdx, r ≤ x → t.getV r = s.byteAt (s.i.toNat + r.val)) ∧
          (∀ r : RegIdx, x < r → t.getV r = s.getV r) ∧ CountsOne s t ∧ KeepsAllBut [.regs, .cycles] s t) ∧
      (s.cfg.memSize ≤ s.i.toNat + x.val →
        ∃ t, exec (.loadRegs x) s = .next t ∧ TakesFault (.outOfBounds (max s.i.toNat s.cfg.memSize)) s t ∧
          (∀ r : RegIdx, r ≤ x → s.i.toNat + r.val < s.cfg.memSize → t.getV r = s.byteAt (s.i.toNat + r.val)) ∧
          (∀ r : RegIdx, x < r ∨ s.cfg.memSize ≤ s.i.toNat + r.val → t.getV r = s.getV r) ∧
          KeepsAllBut [.regs, .run, .events] s t)

/-- `FX55`, then `FX65` with the same X and the same I in any state that kept the memory, gives V0 to VX back
(42_index_memory.md section 3). -/
def Obligations.StoreThenLoadGivesBack : Prop :=
  ∀ (x : RegIdx) (s : State), s.i.toNat + x.val < s.cfg.memSize →
    ∃ t, exec (.storeRegs x) s = .next t ∧
      ∀ t' : State, t'.cfg = t.cfg → t'.i = t.i → (∀ a, t'.byteAt a = t.byteAt a) →
        ∃ u, exec (.loadRegs x) t' = .next u ∧ ∀ r : RegIdx, r ≤ x → u.getV r = s.getV r

/-- A byte stored by `FX55` or `FX33` is seen by the very next fetch and every later one, wherever I and PC stand: the
fetch reads the memory the store left, which holds the stored bytes from I on and the old bytes elsewhere
(20_memory.md section 5). -/
def Obligations.StoreSeenByNextFetch : Prop :=
  ∀ (x : RegIdx) (s : State),
    (s.i.toNat + x.val < s.cfg.memSize →
      ∃ t, exec (.storeRegs x) s = .next t ∧ t.pc = s.pc ∧
        (∀ r : RegIdx, r ≤ x → t.byteAt (s.i.toNat + r.val) = s.getV r) ∧
        KeepsMemOutside s.i.toNat (x.val + 1) s t ∧ FetchReadsMemoryOf t) ∧
    (s.i.toNat + 2 < s.cfg.memSize →
      ∃ t, exec (.ldBVx x) s = .next t ∧ t.pc = s.pc ∧
        (t.byteAt s.i.toNat).toNat = (s.getV x).toNat / 100 ∧
        (t.byteAt (s.i.toNat + 1)).toNat = (s.getV x).toNat / 10 % 10 ∧
        (t.byteAt (s.i.toNat + 2)).toNat = (s.getV x).toNat % 10 ∧
        KeepsMemOutside s.i.toNat 3 s t ∧ FetchReadsMemoryOf t)

/-! ### The compositor, 43_display.md -/

/-- R196: every pixel is 0, whatever it was; no collision is reported. -/
def Obligations.ClearDisplay : Prop :=
  decodeWord 0x00E0 = .ok .cls ∧
  ∀ s : State, ∃ t, exec .cls s = .next t ∧ (∀ x y : Nat, fbRead t.fb x y = false) ∧ CountsOne s t ∧
    KeepsAllBut [.fb, .cycles] s t

/-- `DXYN`, the whole draw against its mathematical definition: exactly the pixels the sprite covers, each wrapped by
itself, are inverted, and VF is 1 exactly when a set bit met a pixel that was set before the draw. No row reads memory
when N = 0 (43_display.md section 2, the spec's decisions D7, D8, D9; log 9). -/
def Obligations.DrawXorsAndReportsCollision : Prop :=
  ∀ (x y : RegIdx) (n : Fin 16) (s : State), n.val = 0 ∨ s.i.toNat + n.val ≤ s.cfg.memSize →
    ∃ t, exec (.drw x y n) s = .next t ∧
      (∀ a b : Nat, SpriteCovers s (s.getV x).toNat (s.getV y).toNat n.val a b → fbRead t.fb a b = !fbRead s.fb a b) ∧
      (∀ a b : Nat, ¬ SpriteCovers s (s.getV x).toNat (s.getV y).toNat n.val a b → fbRead t.fb a b = fbRead s.fb a b) ∧
      (SpriteCollides s (s.getV x).toNat (s.getV y).toNat n.val → t.getV 15 = 1) ∧
      (¬ SpriteCollides s (s.getV x).toNat (s.getV y).toNat n.val → t.getV 15 = 0) ∧
      KeepsRegsBut [15] s t ∧ CountsOne s t ∧ KeepsAllBut [.regs, .fb, .cycles] s t

/-- `DXYN` whose sprite leaves memory: the rows before are drawn, VF is not written, the CPU halts at the first address
outside (43_display.md section 2 and 42_index_memory.md section 3, the spec's decision D10; log 19). -/
def Obligations.DrawOutOfBoundsKeepsRowsBefore : Prop :=
  ∀ (x y : RegIdx) (n : Fin 16) (s : State), n.val ≠ 0 → s.cfg.memSize < s.i.toNat + n.val →
    ∃ t, exec (.drw x y n) s = .next t ∧ TakesFault (.outOfBounds (max s.i.toNat s.cfg.memSize)) s t ∧
      (∀ a b : Nat, SpriteCovers s (s.getV x).toNat (s.getV y).toNat (s.cfg.memSize - s.i.toNat) a b →
        fbRead t.fb a b = !fbRead s.fb a b) ∧
      (∀ a b : Nat, ¬ SpriteCovers s (s.getV x).toNat (s.getV y).toNat (s.cfg.memSize - s.i.toNat) a b →
        fbRead t.fb a b = fbRead s.fb a b) ∧
      KeepsAllBut [.fb, .run, .events] s t

/-- Drawing the same sprite twice at the same place restores the framebuffer, and the second draw reports a collision
exactly when a set bit of the sprite lands on a pixel that was unset before the first (43_display.md section 2; of the
words "VF = 1 if the sprite has any bit set" this is what the Operation gives, log 33). The second draw may name other
registers that hold the same position, since the first writes VF. -/
def Obligations.DrawTwiceRestores : Prop :=
  ∀ (x y x' y' : RegIdx) (n : Fin 16) (s : State), n.val = 0 ∨ s.i.toNat + n.val ≤ s.cfg.memSize →
    ∃ t, exec (.drw x y n) s = .next t ∧
      (t.getV x' = s.getV x → t.getV y' = s.getV y →
        ∃ u, exec (.drw x' y' n) t = .next u ∧
          ((∃ r c, r < n.val ∧ c < 8 ∧ SpriteBitSet s r c ∧
            fbRead s.fb ((s.getV x).toNat + c) ((s.getV y).toNat + r) = false) → u.getV 15 = 1) ∧
          ((¬ ∃ r c, r < n.val ∧ c < 8 ∧ SpriteBitSet s r c ∧
            fbRead s.fb ((s.getV x).toNat + c) ((s.getV y).toNat + r) = false) → u.getV 15 = 0) ∧
          ∀ a b : Nat, fbRead u.fb a b = fbRead s.fb a b)

/-- R191, R192, R193: the three primitives of the framebuffer, with wrap in both coordinates. -/
def Obligations.FramebufferPrimitives : Prop :=
  ∀ (fb : Framebuffer) (x y : Nat),
    (∀ (hy : y % 32 < 32) (hx : x % 64 < 64), fbRead fb x y = fb[y % 32][x % 64]) ∧
    (∀ (b : Bool) (x' y' : Nat), fbRead (fbWrite fb x y b) x' y' =
      if x' % 64 = x % 64 ∧ y' % 32 = y % 32 then b else fbRead fb x' y') ∧
    fbRead fbReset x y = false

/-! ### Keys, 44_keypad.md -/

/-- R212 and R213: the key skips compare all 8 bits of VX, no key matches nothing, and they are exact complements. -/
def Obligations.KeySkips : Prop :=
  ∀ x : RegIdx,
    decodeWord (0xE#4 ++ fieldBits x ++ 0x9E#8) = .ok (.skp x) ∧
    decodeWord (0xE#4 ++ fieldBits x ++ 0xA1#8) = .ok (.sknp x) ∧
    ∀ s : State,
      (∃ t, exec (.skp x) s = .next t ∧ CountsOne s t ∧ KeepsAllBut [.pc, .cycles] s t ∧
        ((∃ k : Key, s.key = some k ∧ k.val = (s.getV x).toNat) → t.pc = s.pc + 2) ∧
        ((¬ ∃ k : Key, s.key = some k ∧ k.val = (s.getV x).toNat) → t.pc = s.pc)) ∧
      (∃ t, exec (.sknp x) s = .next t ∧ CountsOne s t ∧ KeepsAllBut [.pc, .cycles] s t ∧
        ((∃ k : Key, s.key = some k ∧ k.val = (s.getV x).toNat) → t.pc = s.pc) ∧
        ((¬ ∃ k : Key, s.key = some k ∧ k.val = (s.getV x).toNat) → t.pc = s.pc + 2))

/-- `FX0A` opens the wait without counting, a poll without a key changes nothing, and the first poll that finds a key
writes it, counts one and lets the CPU run (44_keypad.md section 2, the spec's decision D14). -/
def Obligations.KeyWaitCompletesOnKey : Prop :=
  (∀ (x : RegIdx) (s : State), ∃ t, exec (.ldVxK x) s = .next t ∧ t.run = .waitKey ∧ t.wait = x ∧
    KeepsAllBut [.run, .wait] s t) ∧
  (∀ s u : State, CpuTurn s u → u.run = .waitKey → u.pause = false → u.stop = false →
    (u.key = none → step s = .next u) ∧
    (∀ k : Key, u.key = some k → ∃ t, step s = .next t ∧ (t.getV u.wait).toNat = k.val ∧ KeepsRegsBut [u.wait] u t ∧
      t.run = .running ∧ CountsOne u t ∧ KeepsAllBut [.regs, .run, .cycles] u t))

/-! ### Timers, 45_timers.md -/

/-- R227 and R228: the delay timer is read and set; after a set it is v - n after n ticks, and the ticks that found it 0
reported it (the event counts only when the environment is bound to it, log 16). -/
def Obligations.DelayTimerReadAndSet : Prop :=
  ∀ x : RegIdx,
    decodeWord (0xF#4 ++ fieldBits x ++ 0x07#8) = .ok (.ldVxDT x) ∧
    decodeWord (0xF#4 ++ fieldBits x ++ 0x15#8) = .ok (.ldDTVx x) ∧
    ∀ s : State,
      (∃ t, exec (.ldVxDT x) s = .next t ∧ t.getV x = s.dt ∧ KeepsRegsBut [x] s t ∧ CountsOne s t ∧
        KeepsAllBut [.regs, .cycles] s t) ∧
      (∃ t, exec (.ldDTVx x) s = .next t ∧ t.dt = s.getV x ∧ CountsOne s t ∧ KeepsAllBut [.dt, .cycles] s t ∧
        ∀ n : Nat, (ticks n t).dt.toNat = (s.getV x).toNat - n ∧
          (s.cfg.delayCbBound = true →
            emitted .delayZero (ticks n t) = emitted .delayZero s + (n - (s.getV x).toNat)))

/-- `FX18`: the sound timer is set and tone_on is emitted for every value; after it, n ticks leave v - n, and the ticks
that found 0 emit tone_off (45_timers.md sections 1 and 2). That an environment not bound to the sound events sees no
tone_on is the model's choice (log 16). -/
def Obligations.SoundTimerSet : Prop :=
  ∀ x : RegIdx, decodeWord (0xF#4 ++ fieldBits x ++ 0x18#8) = .ok (.ldSTVx x) ∧
    ∀ s : State, ∃ t, exec (.ldSTVx x) s = .next t ∧ t.st = s.getV x ∧
      t.events = (if s.cfg.soundCbBound then s.events ++ [.toneOn] else s.events) ∧
      CountsOne s t ∧ KeepsAllBut [.st, .events, .cycles] s t ∧
      ∀ n : Nat, (ticks n t).st.toNat = (s.getV x).toNat - n ∧
        (s.cfg.soundCbBound = true → emitted .toneOff (ticks n t) = emitted .toneOff s + (n - (s.getV x).toNat))

/-- A TIMER turn is enabled in every state, decrements both timers without wrapping, reports each timer it finds at 0,
delay first, and touches nothing else (45_timers.md section 1, the spec's decisions D18, D19). -/
def Obligations.TickTurn : Prop :=
  ∀ s u : State, TurnDue s .tick u →
    ∃ t, step s = .next t ∧ t.dt.toNat = u.dt.toNat - 1 ∧ t.st.toNat = u.st.toNat - 1 ∧
      t.events = u.events ++
        (if u.dt = 0 ∧ u.cfg.delayCbBound = true then [.delayZero] else []) ++
        (if u.st = 0 ∧ u.cfg.soundCbBound = true then [.toneOff] else []) ∧
      KeepsAllBut [.dt, .st, .events] u t

/-! ### Faults and run control, 60_exceptions.md -/

/-- Raising a fault halts the CPU, reports the fault with its snapshot, counts nothing and transfers control nowhere;
afterwards the CPU agent has no step, whatever `pause` and `stop` are (60_exceptions.md section 2). What a step function
answers for an agent without a step, the fault `cpuHalted` where only the CPU has turns left and a spent turn otherwise,
is the model's choice (log 5). -/
def Obligations.FaultEntryHalts : Prop :=
  ∀ (f : CpuFault) (s : State), ∃ t, raise f s = .next t ∧ TakesFault f s t ∧ KeepsAllBut [.run, .events] s t ∧
    (∀ u : State, u.run = t.run → CpuAlone u → step u = .fault (.cpuHalted f)) ∧
    (∀ u v : State, u.run = t.run → TurnDue u .cpu v → step u = .next v)

/-- With `stop` asserted the CPU's turn is the transition to STOPPED, with no fault and no event, and the CPU then has no
further step (60_exceptions.md section 3). That a paused CPU takes the transition too is the spec's decision D33; after an
aborted `FX0A` the statement leaves VX open, as 93_implementation_defined.md U1 asks (log 17); what a step function
answers in STOPPED, the fault `cpuStopped` where only the CPU has turns left and a spent turn otherwise, is the model's
choice (log 5). -/
def Obligations.StopTransition : Prop :=
  (∀ s u : State, CpuTurn s u → u.stop = true → u.run = .running ∨ u.run = .waitKey →
    ∃ t, step s = .next t ∧ t.run = .stopped ∧ KeepsAllBut [.run, .regs] u t ∧
      (u.run = .running → KeepsRegsBut [] u t) ∧ (u.run = .waitKey → KeepsRegsBut [u.wait] u t)) ∧
  (∀ s : State, s.run = .stopped → CpuAlone s → step s = .fault .cpuStopped) ∧
  (∀ s u : State, s.run = .stopped → TurnDue s .cpu u → step s = .next u)

/-- While `pause = 1` and `stop = 0` a CPU turn changes nothing, in RUNNING and in WAIT_KEY, and with no other turn due
the machine is held; ending the pause gives the CPU the step it was held from (60_exceptions.md section 3, the spec's
decision D33; log 5). -/
def Obligations.PauseHoldsCpu : Prop :=
  ∀ s : State, s.run = .running ∨ s.run = .waitKey → s.pause = true → s.stop = false →
    (∀ u, TurnDue s .cpu u → step s = .next u) ∧
    (CpuAlone s → step s = .fault .cpuHeld) ∧
    (∀ u, TurnDue s (.host (.setPause false)) u →
      ∃ t, step s = .next t ∧ t.pause = false ∧ KeepsAllBut [.pause] u t)

/-- HALTED and STOPPED are final: along any run in which the host gives no reset, the CPU stays in that run state and
nothing of the block changes but the timers and the key latch (60_exceptions.md sections 2 and 3). -/
def Obligations.HaltAndStopAreFinal : Prop :=
  ∀ s t : State, Steps s t → NeverDue (.host .reset) s →
    (∃ f, s.run = .halted f) ∨ s.run = .stopped →
    KeepsAllBut [.dt, .st, .key, .pause, .stop, .agenda, .schedule, .events, .fbReplies] s t

/-! ### Rules about every instruction -/

/-- Every instruction answers a next state in every state: the model refuses none and stops on none. -/
def Obligations.EveryInstructionAnswersNext : Prop := ∀ (i : Instr) (s : State), ∃ t, exec i s = .next t

/-- PC after the fetch is written only by the jumps, the call, the return and a skip's second advance; I only by `ANNN`,
`FX1E`, `FX29` (10_state.md section 3). -/
def Obligations.OnlyNamedFormsWritePcAndIndex : Prop :=
  ∀ (i : Instr) (s t : State), exec i s = .next t →
    (t.pc ≠ s.pc →
      (∃ nnn, i = .jp nnn ∨ i = .call nnn ∨ i = .jpV0 nnn) ∨ i = .ret ∨
      (t.pc = s.pc + 2 ∧ ∃ x y nn, i = .seImm x nn ∨ i = .sneImm x nn ∨ i = .seReg x y ∨ i = .sneReg x y ∨
        i = .skp x ∨ i = .sknp x)) ∧
    (t.i ≠ s.i → ∃ x nnn, i = .ldI nnn ∨ i = .addIVx x ∨ i = .ldFVx x)

/-- VF changes only as a flag of the six flag-writing forms or as the named destination (10_state.md section 2, the
spec's decision D5). -/
def Obligations.OnlyNamedFormsWriteFlag : Prop :=
  ∀ (i : Instr) (s t : State), exec i s = .next t → t.getV 15 ≠ s.getV 15 →
    (∃ x y n, i = .addReg x y ∨ i = .subReg x y ∨ i = .shrReg x y ∨ i = .subnReg x y ∨ i = .shlReg x y ∨
      i = .drw x y n) ∨
    (∃ y nn, i = .ldImm 15 nn ∨ i = .addImm 15 nn ∨ i = .ldReg 15 y ∨ i = .orReg 15 y ∨ i = .andReg 15 y ∨
      i = .xorReg 15 y ∨ i = .rnd 15 nn ∨ i = .ldVxDT 15 ∨ i = .loadRegs 15)

/-- The stack is written only by `2NNN` and `00EE`, the framebuffer only by `00E0` and `DXYN`, DT only by `FX15`, ST only
by `FX18`; no instruction writes KEY, the levels, the parameters, the agenda or the schedule (10_state.md sections 3 to 5). -/
def Obligations.OnlyNamedFormsWriteUnits : Prop :=
  ∀ (i : Instr) (s t : State), exec i s = .next t →
    (t.stack ≠ s.stack → i = .ret ∨ ∃ nnn, i = .call nnn) ∧
    (t.fb ≠ s.fb → i = .cls ∨ ∃ x y n, i = .drw x y n) ∧
    (t.dt ≠ s.dt → ∃ x, i = .ldDTVx x) ∧
    (t.st ≠ s.st → ∃ x, i = .ldSTVx x) ∧
    t.key = s.key ∧ t.pause = s.pause ∧ t.stop = s.stop ∧ t.cfg = s.cfg ∧ t.agenda = s.agenda ∧
    t.schedule = s.schedule

/-- A byte of memory changes only by `FX33` at I to I + 2 or by `FX55` at I to I + X, and only at an address that exists
(20_memory.md sections 1 and 4). -/
def Obligations.OnlyStoresChangeMemory : Prop :=
  ∀ (i : Instr) (s t : State) (a : Nat), exec i s = .next t → t.byteAt a ≠ s.byteAt a →
    a < s.cfg.memSize ∧ s.i.toNat ≤ a ∧
      ((∃ x, i = .ldBVx x ∧ a < s.i.toNat + 3) ∨ (∃ x, i = .storeRegs x ∧ a < s.i.toNat + x.val + 1))

/-- The cycle counter: an instruction that completes counts one up to CYCLE_MAX; one that faults or opens the key wait
counts nothing (10_state.md section 5, the spec's decision D12). -/
def Obligations.CyclesCountCompletedInstructions : Prop :=
  ∀ (i : Instr) (s t : State), s.run = .running → exec i s = .next t →
    (t.run = .running ∧ CountsOne s t) ∨
    ((∃ f, t.run = .halted f) ∧ t.cycles = s.cycles) ∨
    (t.run = .waitKey ∧ t.cycles = s.cycles ∧ ∃ x, i = .ldVxK x)

/-- Over any step of any agent the delay timer rises only when the CPU performs `FX15` (70_reset_and_hazards.md
section 3, the spec's decision D17). -/
def Obligations.DelayRisesOnlyBySet : Prop :=
  ∀ s t : State, step s = .next t → s.dt.toNat < t.dt.toNat →
    (∃ u, CpuTurn s u) ∧ ∃ x, decodeWord (wordAtPc s) = .ok (.ldDTVx x) ∧ t.dt = s.getV x

/-! ### Memory and arithmetic primitives -/

/-- R61 and R62: the one-byte accesses, at every natural number. -/
def Obligations.MemoryPrimitives : Prop :=
  ∀ (s : State) (a : Nat),
    (a < s.cfg.memSize → memRead s a = .ok (s.byteAt a) ∧
      ∀ b : Byte, ∃ t, memWrite s a b = .ok t ∧ memRead t a = .ok b ∧ KeepsMemOutside a 1 s t ∧
        KeepsAllBut [.mem] s t) ∧
    (s.cfg.memSize ≤ a → memRead s a = .error (.outOfBounds a) ∧
      ∀ b : Byte, memWrite s a b = .error (.outOfBounds a))

/-- R10: the numeric primitives with flag capture. -/
def Obligations.NumericPrimitives : Prop :=
  (∀ a b : Byte, (add8 a b).1.toNat = (a.toNat + b.toNat) % 256 ∧ ((add8 a b).2 = true ↔ a.toNat + b.toNat > 255)) ∧
  (∀ a b : Byte, ((sub8 a b).1.toNat = if b.toNat ≤ a.toNat then a.toNat - b.toNat else a.toNat + 256 - b.toNat) ∧
    ((sub8 a b).2 = true ↔ a.toNat < b.toNat)) ∧
  (∀ a b : Word, (add16 a b).toNat = (a.toNat + b.toNat) % 65536)

/-! ### Reset, load and the host's turns, 70_reset_and_hazards.md -/

/-- The machine right after reset (10_state.md section 8; the values of I, STACK, DT, ST, KEY, CYCLES, RUN and of memory
outside the font are the spec's decision D20, log 10; MEM_SIZE is the default 4095 of 00_scope.md section 3). -/
def Obligations.ResetValues : Prop :=
  (∀ r : RegIdx, State.reset.getV r = 0) ∧ State.reset.pc.toNat = 0x200 ∧
  (∀ x y : Nat, fbRead State.reset.fb x y = false) ∧
  (∀ a : Nat, ∀ h : a < 80, memRead State.reset a = .ok (State.reset.cfg.font[a])) ∧
  (∀ a : Nat, 80 ≤ a → a < 4095 → memRead State.reset a = .ok 0) ∧
  (∀ a : Nat, 4095 ≤ a → memRead State.reset a = .error (.outOfBounds a)) ∧
  State.reset.i = 0 ∧ State.reset.stack = [] ∧ State.reset.dt = 0 ∧ State.reset.st = 0 ∧ State.reset.key = none ∧
  State.reset.cycles = 0 ∧ State.reset.run = .running ∧ State.reset.events = []

/-- The host's `reset` from any state in which it is allowed, HALTED and STOPPED among them, gives the reset values of
the block, emits no event, and keeps the parameters and the font (70_reset_and_hazards.md section 1; that it lowers
`stop` and keeps `pause` is log 12, the duty is log 13). A reset under a CPU that may run is refused. -/
def Obligations.HostResetTurn : Prop :=
  ∀ s u : State, TurnDue s (.host .reset) u →
    (u.started = false ∨ u.pause = true ∨ (∃ f, u.run = .halted f) ∨ u.run = .stopped →
      ∃ t, step s = .next t ∧ (∀ r : RegIdx, t.getV r = 0) ∧ t.i = 0 ∧ t.pc = 0x200 ∧ t.stack = [] ∧
        (∀ a : Nat, ∀ h : a < 80, t.byteAt a = u.cfg.font[a]) ∧ (∀ a : Nat, 80 ≤ a → t.byteAt a = 0) ∧
        (∀ x y : Nat, fbRead t.fb x y = false) ∧ t.dt = 0 ∧ t.st = 0 ∧ t.key = none ∧ t.cycles = 0 ∧
        t.run = .running ∧ t.stop = false ∧ t.started = false ∧
        KeepsAllBut [.regs, .i, .pc, .stack, .mem, .fb, .dt, .st, .key, .cycles, .run, .wait, .stop, .started] u t) ∧
    (u.started = true → u.pause = false → u.run = .running ∨ u.run = .waitKey →
      step s = .refused .resetWhileRunning)

/-- The host's `load` between reset and the first instruction step: the program area is cleared and filled from 0x200,
bytes beyond its end are dropped, the cells below stay (70_reset_and_hazards.md section 2, the spec's decision D31; log
14). Outside that time it is refused. -/
def Obligations.LoadTurn : Prop :=
  ∀ (s u : State) (bytes : List Byte), TurnDue s (.host (.load bytes)) u →
    (u.started = false → u.run = .running →
      ∃ t, step s = .next t ∧
        (∀ a : Nat, a < 0x200 → t.byteAt a = u.byteAt a) ∧
        (∀ k : Nat, ∀ h : k < bytes.length, 0x200 + k < u.cfg.memSize → t.byteAt (0x200 + k) = bytes[k]) ∧
        (∀ a : Nat, 0x200 ≤ a → (0x200 + bytes.length ≤ a ∨ u.cfg.memSize ≤ a) → t.byteAt a = 0) ∧
        KeepsAllBut [.mem] u t) ∧
    (u.started = true ∨ (∃ f, u.run = .halted f) ∨ u.run = .stopped → step s = .refused .loadOutsideBoot)

/-- The host's key, display and level turns, enabled in every state (60_exceptions.md section 5): one latch, the last
key-down replaces, any key-up clears; the read port answers one wrapped pixel and changes nothing else; `pause` takes
either level and `stop` is set, and neither changes anything else (44_keypad.md section 1, 10_state.md sections 6 and 7,
the spec's decisions D16, D26; the list of answers is the model's, log 15, and so is a field for each level, log 12). -/
def Obligations.KeyAndDisplayTurns : Prop :=
  ∀ s u : State,
    (∀ k : Key, TurnDue s (.host (.keyDown k)) u →
      ∃ t, step s = .next t ∧ t.key = some k ∧ KeepsAllBut [.key] u t) ∧
    (TurnDue s (.host .keyUp) u →
      ∃ t, step s = .next t ∧ t.key = none ∧ KeepsAllBut [.key] u t) ∧
    (∀ x y : Nat, TurnDue s (.host (.fbRead x y)) u →
      ∃ t, step s = .next t ∧ t.fbReplies = u.fbReplies ++ [fbRead u.fb (x % 64) (y % 32)] ∧
        KeepsAllBut [.fbReplies] u t) ∧
    (∀ level : Bool, TurnDue s (.host (.setPause level)) u →
      ∃ t, step s = .next t ∧ t.pause = level ∧ KeepsAllBut [.pause] u t) ∧
    (TurnDue s (.host .setStop) u →
      ∃ t, step s = .next t ∧ t.stop = true ∧ KeepsAllBut [.stop] u t)

/-! ### The invariant -/

/-- The invariant holds right after reset. -/
def Obligations.ResetHasInvariant : Prop := State.reset.Inv

/-- Every step of every agent keeps the invariant, from every state that has it: the memory stays canonical, CYCLES stays
at most CYCLE_MAX, the stack fits its depth, a halt is always reported, and a fresh CPU neither waits nor is halted. -/
def Obligations.StepKeepsInvariant : Prop := ∀ s t : State, s.Inv → step s = .next t → t.Inv

/-- The canonical form is unique: two canonical memories that read the same everywhere are equal, so that equal memories
are equal data. -/
def Obligations.CanonicalMemoryIsUnique : Prop :=
  ∀ (c : Config) (m m' : Memory), Memory.wf c m = true → Memory.wf c m' = true →
    (∀ a : Nat, Memory.read c m a = Memory.read c m' a) → m = m'
end

