-- ==== Sys2Proof/Laws/State.lean ====
section
/-! SUPPORT. Laws/State.lean: one lemma for each field of each setter, and the same for the operations built from setters,
so that no proof unfolds a record update. -/

namespace Sys2Proof.Machine

section setRegs
variable (s : State) (a : Vector Byte 16)
@[simp] theorem setRegs_cfg : (s.setRegs a).cfg = s.cfg := rfl
@[simp] theorem setRegs_v : (s.setRegs a).v = a := rfl
@[simp] theorem setRegs_i : (s.setRegs a).i = s.i := rfl
@[simp] theorem setRegs_pc : (s.setRegs a).pc = s.pc := rfl
@[simp] theorem setRegs_stack : (s.setRegs a).stack = s.stack := rfl
@[simp] theorem setRegs_mem : (s.setRegs a).mem = s.mem := rfl
@[simp] theorem setRegs_fb : (s.setRegs a).fb = s.fb := rfl
@[simp] theorem setRegs_dt : (s.setRegs a).dt = s.dt := rfl
@[simp] theorem setRegs_st : (s.setRegs a).st = s.st := rfl
@[simp] theorem setRegs_key : (s.setRegs a).key = s.key := rfl
@[simp] theorem setRegs_cycles : (s.setRegs a).cycles = s.cycles := rfl
@[simp] theorem setRegs_run : (s.setRegs a).run = s.run := rfl
@[simp] theorem setRegs_wait : (s.setRegs a).wait = s.wait := rfl
@[simp] theorem setRegs_pause : (s.setRegs a).pause = s.pause := rfl
@[simp] theorem setRegs_stop : (s.setRegs a).stop = s.stop := rfl
@[simp] theorem setRegs_started : (s.setRegs a).started = s.started := rfl
@[simp] theorem setRegs_draws : (s.setRegs a).draws = s.draws := rfl
@[simp] theorem setRegs_agenda : (s.setRegs a).agenda = s.agenda := rfl
@[simp] theorem setRegs_schedule : (s.setRegs a).schedule = s.schedule := rfl
@[simp] theorem setRegs_events : (s.setRegs a).events = s.events := rfl
@[simp] theorem setRegs_fbReplies : (s.setRegs a).fbReplies = s.fbReplies := rfl
@[simp] theorem setRegs_byteAt (k : Nat) : (s.setRegs a).byteAt k = s.byteAt k := rfl
end setRegs

section setI
variable (s : State) (a : Word)
@[simp] theorem setI_cfg : (s.setI a).cfg = s.cfg := rfl
@[simp] theorem setI_v : (s.setI a).v = s.v := rfl
@[simp] theorem setI_i : (s.setI a).i = a := rfl
@[simp] theorem setI_pc : (s.setI a).pc = s.pc := rfl
@[simp] theorem setI_stack : (s.setI a).stack = s.stack := rfl
@[simp] theorem setI_mem : (s.setI a).mem = s.mem := rfl
@[simp] theorem setI_fb : (s.setI a).fb = s.fb := rfl
@[simp] theorem setI_dt : (s.setI a).dt = s.dt := rfl
@[simp] theorem setI_st : (s.setI a).st = s.st := rfl
@[simp] theorem setI_key : (s.setI a).key = s.key := rfl
@[simp] theorem setI_cycles : (s.setI a).cycles = s.cycles := rfl
@[simp] theorem setI_run : (s.setI a).run = s.run := rfl
@[simp] theorem setI_wait : (s.setI a).wait = s.wait := rfl
@[simp] theorem setI_pause : (s.setI a).pause = s.pause := rfl
@[simp] theorem setI_stop : (s.setI a).stop = s.stop := rfl
@[simp] theorem setI_started : (s.setI a).started = s.started := rfl
@[simp] theorem setI_draws : (s.setI a).draws = s.draws := rfl
@[simp] theorem setI_agenda : (s.setI a).agenda = s.agenda := rfl
@[simp] theorem setI_schedule : (s.setI a).schedule = s.schedule := rfl
@[simp] theorem setI_events : (s.setI a).events = s.events := rfl
@[simp] theorem setI_fbReplies : (s.setI a).fbReplies = s.fbReplies := rfl
@[simp] theorem setI_getV (r : RegIdx) : (s.setI a).getV r = s.getV r := rfl
@[simp] theorem setI_byteAt (k : Nat) : (s.setI a).byteAt k = s.byteAt k := rfl
end setI

section setPc
variable (s : State) (a : Word)
@[simp] theorem setPc_cfg : (s.setPc a).cfg = s.cfg := rfl
@[simp] theorem setPc_v : (s.setPc a).v = s.v := rfl
@[simp] theorem setPc_i : (s.setPc a).i = s.i := rfl
@[simp] theorem setPc_pc : (s.setPc a).pc = a := rfl
@[simp] theorem setPc_stack : (s.setPc a).stack = s.stack := rfl
@[simp] theorem setPc_mem : (s.setPc a).mem = s.mem := rfl
@[simp] theorem setPc_fb : (s.setPc a).fb = s.fb := rfl
@[simp] theorem setPc_dt : (s.setPc a).dt = s.dt := rfl
@[simp] theorem setPc_st : (s.setPc a).st = s.st := rfl
@[simp] theorem setPc_key : (s.setPc a).key = s.key := rfl
@[simp] theorem setPc_cycles : (s.setPc a).cycles = s.cycles := rfl
@[simp] theorem setPc_run : (s.setPc a).run = s.run := rfl
@[simp] theorem setPc_wait : (s.setPc a).wait = s.wait := rfl
@[simp] theorem setPc_pause : (s.setPc a).pause = s.pause := rfl
@[simp] theorem setPc_stop : (s.setPc a).stop = s.stop := rfl
@[simp] theorem setPc_started : (s.setPc a).started = s.started := rfl
@[simp] theorem setPc_draws : (s.setPc a).draws = s.draws := rfl
@[simp] theorem setPc_agenda : (s.setPc a).agenda = s.agenda := rfl
@[simp] theorem setPc_schedule : (s.setPc a).schedule = s.schedule := rfl
@[simp] theorem setPc_events : (s.setPc a).events = s.events := rfl
@[simp] theorem setPc_fbReplies : (s.setPc a).fbReplies = s.fbReplies := rfl
@[simp] theorem setPc_getV (r : RegIdx) : (s.setPc a).getV r = s.getV r := rfl
@[simp] theorem setPc_byteAt (k : Nat) : (s.setPc a).byteAt k = s.byteAt k := rfl
end setPc

section setStack
variable (s : State) (a : List Word)
@[simp] theorem setStack_cfg : (s.setStack a).cfg = s.cfg := rfl
@[simp] theorem setStack_v : (s.setStack a).v = s.v := rfl
@[simp] theorem setStack_i : (s.setStack a).i = s.i := rfl
@[simp] theorem setStack_pc : (s.setStack a).pc = s.pc := rfl
@[simp] theorem setStack_stack : (s.setStack a).stack = a := rfl
@[simp] theorem setStack_mem : (s.setStack a).mem = s.mem := rfl
@[simp] theorem setStack_fb : (s.setStack a).fb = s.fb := rfl
@[simp] theorem setStack_dt : (s.setStack a).dt = s.dt := rfl
@[simp] theorem setStack_st : (s.setStack a).st = s.st := rfl
@[simp] theorem setStack_key : (s.setStack a).key = s.key := rfl
@[simp] theorem setStack_cycles : (s.setStack a).cycles = s.cycles := rfl
@[simp] theorem setStack_run : (s.setStack a).run = s.run := rfl
@[simp] theorem setStack_wait : (s.setStack a).wait = s.wait := rfl
@[simp] theorem setStack_pause : (s.setStack a).pause = s.pause := rfl
@[simp] theorem setStack_stop : (s.setStack a).stop = s.stop := rfl
@[simp] theorem setStack_started : (s.setStack a).started = s.started := rfl
@[simp] theorem setStack_draws : (s.setStack a).draws = s.draws := rfl
@[simp] theorem setStack_agenda : (s.setStack a).agenda = s.agenda := rfl
@[simp] theorem setStack_schedule : (s.setStack a).schedule = s.schedule := rfl
@[simp] theorem setStack_events : (s.setStack a).events = s.events := rfl
@[simp] theorem setStack_fbReplies : (s.setStack a).fbReplies = s.fbReplies := rfl
@[simp] theorem setStack_getV (r : RegIdx) : (s.setStack a).getV r = s.getV r := rfl
@[simp] theorem setStack_byteAt (k : Nat) : (s.setStack a).byteAt k = s.byteAt k := rfl
end setStack

section setMem
variable (s : State) (a : Memory)
@[simp] theorem setMem_cfg : (s.setMem a).cfg = s.cfg := rfl
@[simp] theorem setMem_v : (s.setMem a).v = s.v := rfl
@[simp] theorem setMem_i : (s.setMem a).i = s.i := rfl
@[simp] theorem setMem_pc : (s.setMem a).pc = s.pc := rfl
@[simp] theorem setMem_stack : (s.setMem a).stack = s.stack := rfl
@[simp] theorem setMem_mem : (s.setMem a).mem = a := rfl
@[simp] theorem setMem_fb : (s.setMem a).fb = s.fb := rfl
@[simp] theorem setMem_dt : (s.setMem a).dt = s.dt := rfl
@[simp] theorem setMem_st : (s.setMem a).st = s.st := rfl
@[simp] theorem setMem_key : (s.setMem a).key = s.key := rfl
@[simp] theorem setMem_cycles : (s.setMem a).cycles = s.cycles := rfl
@[simp] theorem setMem_run : (s.setMem a).run = s.run := rfl
@[simp] theorem setMem_wait : (s.setMem a).wait = s.wait := rfl
@[simp] theorem setMem_pause : (s.setMem a).pause = s.pause := rfl
@[simp] theorem setMem_stop : (s.setMem a).stop = s.stop := rfl
@[simp] theorem setMem_started : (s.setMem a).started = s.started := rfl
@[simp] theorem setMem_draws : (s.setMem a).draws = s.draws := rfl
@[simp] theorem setMem_agenda : (s.setMem a).agenda = s.agenda := rfl
@[simp] theorem setMem_schedule : (s.setMem a).schedule = s.schedule := rfl
@[simp] theorem setMem_events : (s.setMem a).events = s.events := rfl
@[simp] theorem setMem_fbReplies : (s.setMem a).fbReplies = s.fbReplies := rfl
@[simp] theorem setMem_getV (r : RegIdx) : (s.setMem a).getV r = s.getV r := rfl
end setMem

section setFb
variable (s : State) (a : Framebuffer)
@[simp] theorem setFb_cfg : (s.setFb a).cfg = s.cfg := rfl
@[simp] theorem setFb_v : (s.setFb a).v = s.v := rfl
@[simp] theorem setFb_i : (s.setFb a).i = s.i := rfl
@[simp] theorem setFb_pc : (s.setFb a).pc = s.pc := rfl
@[simp] theorem setFb_stack : (s.setFb a).stack = s.stack := rfl
@[simp] theorem setFb_mem : (s.setFb a).mem = s.mem := rfl
@[simp] theorem setFb_fb : (s.setFb a).fb = a := rfl
@[simp] theorem setFb_dt : (s.setFb a).dt = s.dt := rfl
@[simp] theorem setFb_st : (s.setFb a).st = s.st := rfl
@[simp] theorem setFb_key : (s.setFb a).key = s.key := rfl
@[simp] theorem setFb_cycles : (s.setFb a).cycles = s.cycles := rfl
@[simp] theorem setFb_run : (s.setFb a).run = s.run := rfl
@[simp] theorem setFb_wait : (s.setFb a).wait = s.wait := rfl
@[simp] theorem setFb_pause : (s.setFb a).pause = s.pause := rfl
@[simp] theorem setFb_stop : (s.setFb a).stop = s.stop := rfl
@[simp] theorem setFb_started : (s.setFb a).started = s.started := rfl
@[simp] theorem setFb_draws : (s.setFb a).draws = s.draws := rfl
@[simp] theorem setFb_agenda : (s.setFb a).agenda = s.agenda := rfl
@[simp] theorem setFb_schedule : (s.setFb a).schedule = s.schedule := rfl
@[simp] theorem setFb_events : (s.setFb a).events = s.events := rfl
@[simp] theorem setFb_fbReplies : (s.setFb a).fbReplies = s.fbReplies := rfl
@[simp] theorem setFb_getV (r : RegIdx) : (s.setFb a).getV r = s.getV r := rfl
@[simp] theorem setFb_byteAt (k : Nat) : (s.setFb a).byteAt k = s.byteAt k := rfl
end setFb

section setDt
variable (s : State) (a : Byte)
@[simp] theorem setDt_cfg : (s.setDt a).cfg = s.cfg := rfl
@[simp] theorem setDt_v : (s.setDt a).v = s.v := rfl
@[simp] theorem setDt_i : (s.setDt a).i = s.i := rfl
@[simp] theorem setDt_pc : (s.setDt a).pc = s.pc := rfl
@[simp] theorem setDt_stack : (s.setDt a).stack = s.stack := rfl
@[simp] theorem setDt_mem : (s.setDt a).mem = s.mem := rfl
@[simp] theorem setDt_fb : (s.setDt a).fb = s.fb := rfl
@[simp] theorem setDt_dt : (s.setDt a).dt = a := rfl
@[simp] theorem setDt_st : (s.setDt a).st = s.st := rfl
@[simp] theorem setDt_key : (s.setDt a).key = s.key := rfl
@[simp] theorem setDt_cycles : (s.setDt a).cycles = s.cycles := rfl
@[simp] theorem setDt_run : (s.setDt a).run = s.run := rfl
@[simp] theorem setDt_wait : (s.setDt a).wait = s.wait := rfl
@[simp] theorem setDt_pause : (s.setDt a).pause = s.pause := rfl
@[simp] theorem setDt_stop : (s.setDt a).stop = s.stop := rfl
@[simp] theorem setDt_started : (s.setDt a).started = s.started := rfl
@[simp] theorem setDt_draws : (s.setDt a).draws = s.draws := rfl
@[simp] theorem setDt_agenda : (s.setDt a).agenda = s.agenda := rfl
@[simp] theorem setDt_schedule : (s.setDt a).schedule = s.schedule := rfl
@[simp] theorem setDt_events : (s.setDt a).events = s.events := rfl
@[simp] theorem setDt_fbReplies : (s.setDt a).fbReplies = s.fbReplies := rfl
@[simp] theorem setDt_getV (r : RegIdx) : (s.setDt a).getV r = s.getV r := rfl
@[simp] theorem setDt_byteAt (k : Nat) : (s.setDt a).byteAt k = s.byteAt k := rfl
end setDt

section setSt
variable (s : State) (a : Byte)
@[simp] theorem setSt_cfg : (s.setSt a).cfg = s.cfg := rfl
@[simp] theorem setSt_v : (s.setSt a).v = s.v := rfl
@[simp] theorem setSt_i : (s.setSt a).i = s.i := rfl
@[simp] theorem setSt_pc : (s.setSt a).pc = s.pc := rfl
@[simp] theorem setSt_stack : (s.setSt a).stack = s.stack := rfl
@[simp] theorem setSt_mem : (s.setSt a).mem = s.mem := rfl
@[simp] theorem setSt_fb : (s.setSt a).fb = s.fb := rfl
@[simp] theorem setSt_dt : (s.setSt a).dt = s.dt := rfl
@[simp] theorem setSt_st : (s.setSt a).st = a := rfl
@[simp] theorem setSt_key : (s.setSt a).key = s.key := rfl
@[simp] theorem setSt_cycles : (s.setSt a).cycles = s.cycles := rfl
@[simp] theorem setSt_run : (s.setSt a).run = s.run := rfl
@[simp] theorem setSt_wait : (s.setSt a).wait = s.wait := rfl
@[simp] theorem setSt_pause : (s.setSt a).pause = s.pause := rfl
@[simp] theorem setSt_stop : (s.setSt a).stop = s.stop := rfl
@[simp] theorem setSt_started : (s.setSt a).started = s.started := rfl
@[simp] theorem setSt_draws : (s.setSt a).draws = s.draws := rfl
@[simp] theorem setSt_agenda : (s.setSt a).agenda = s.agenda := rfl
@[simp] theorem setSt_schedule : (s.setSt a).schedule = s.schedule := rfl
@[simp] theorem setSt_events : (s.setSt a).events = s.events := rfl
@[simp] theorem setSt_fbReplies : (s.setSt a).fbReplies = s.fbReplies := rfl
@[simp] theorem setSt_getV (r : RegIdx) : (s.setSt a).getV r = s.getV r := rfl
@[simp] theorem setSt_byteAt (k : Nat) : (s.setSt a).byteAt k = s.byteAt k := rfl
end setSt

section setKey
variable (s : State) (a : Option Key)
@[simp] theorem setKey_cfg : (s.setKey a).cfg = s.cfg := rfl
@[simp] theorem setKey_v : (s.setKey a).v = s.v := rfl
@[simp] theorem setKey_i : (s.setKey a).i = s.i := rfl
@[simp] theorem setKey_pc : (s.setKey a).pc = s.pc := rfl
@[simp] theorem setKey_stack : (s.setKey a).stack = s.stack := rfl
@[simp] theorem setKey_mem : (s.setKey a).mem = s.mem := rfl
@[simp] theorem setKey_fb : (s.setKey a).fb = s.fb := rfl
@[simp] theorem setKey_dt : (s.setKey a).dt = s.dt := rfl
@[simp] theorem setKey_st : (s.setKey a).st = s.st := rfl
@[simp] theorem setKey_key : (s.setKey a).key = a := rfl
@[simp] theorem setKey_cycles : (s.setKey a).cycles = s.cycles := rfl
@[simp] theorem setKey_run : (s.setKey a).run = s.run := rfl
@[simp] theorem setKey_wait : (s.setKey a).wait = s.wait := rfl
@[simp] theorem setKey_pause : (s.setKey a).pause = s.pause := rfl
@[simp] theorem setKey_stop : (s.setKey a).stop = s.stop := rfl
@[simp] theorem setKey_started : (s.setKey a).started = s.started := rfl
@[simp] theorem setKey_draws : (s.setKey a).draws = s.draws := rfl
@[simp] theorem setKey_agenda : (s.setKey a).agenda = s.agenda := rfl
@[simp] theorem setKey_schedule : (s.setKey a).schedule = s.schedule := rfl
@[simp] theorem setKey_events : (s.setKey a).events = s.events := rfl
@[simp] theorem setKey_fbReplies : (s.setKey a).fbReplies = s.fbReplies := rfl
@[simp] theorem setKey_getV (r : RegIdx) : (s.setKey a).getV r = s.getV r := rfl
@[simp] theorem setKey_byteAt (k : Nat) : (s.setKey a).byteAt k = s.byteAt k := rfl
end setKey

section setCycles
variable (s : State) (a : Nat)
@[simp] theorem setCycles_cfg : (s.setCycles a).cfg = s.cfg := rfl
@[simp] theorem setCycles_v : (s.setCycles a).v = s.v := rfl
@[simp] theorem setCycles_i : (s.setCycles a).i = s.i := rfl
@[simp] theorem setCycles_pc : (s.setCycles a).pc = s.pc := rfl
@[simp] theorem setCycles_stack : (s.setCycles a).stack = s.stack := rfl
@[simp] theorem setCycles_mem : (s.setCycles a).mem = s.mem := rfl
@[simp] theorem setCycles_fb : (s.setCycles a).fb = s.fb := rfl
@[simp] theorem setCycles_dt : (s.setCycles a).dt = s.dt := rfl
@[simp] theorem setCycles_st : (s.setCycles a).st = s.st := rfl
@[simp] theorem setCycles_key : (s.setCycles a).key = s.key := rfl
@[simp] theorem setCycles_cycles : (s.setCycles a).cycles = a := rfl
@[simp] theorem setCycles_run : (s.setCycles a).run = s.run := rfl
@[simp] theorem setCycles_wait : (s.setCycles a).wait = s.wait := rfl
@[simp] theorem setCycles_pause : (s.setCycles a).pause = s.pause := rfl
@[simp] theorem setCycles_stop : (s.setCycles a).stop = s.stop := rfl
@[simp] theorem setCycles_started : (s.setCycles a).started = s.started := rfl
@[simp] theorem setCycles_draws : (s.setCycles a).draws = s.draws := rfl
@[simp] theorem setCycles_agenda : (s.setCycles a).agenda = s.agenda := rfl
@[simp] theorem setCycles_schedule : (s.setCycles a).schedule = s.schedule := rfl
@[simp] theorem setCycles_events : (s.setCycles a).events = s.events := rfl
@[simp] theorem setCycles_fbReplies : (s.setCycles a).fbReplies = s.fbReplies := rfl
@[simp] theorem setCycles_getV (r : RegIdx) : (s.setCycles a).getV r = s.getV r := rfl
@[simp] theorem setCycles_byteAt (k : Nat) : (s.setCycles a).byteAt k = s.byteAt k := rfl
end setCycles

section setRun
variable (s : State) (a : RunState)
@[simp] theorem setRun_cfg : (s.setRun a).cfg = s.cfg := rfl
@[simp] theorem setRun_v : (s.setRun a).v = s.v := rfl
@[simp] theorem setRun_i : (s.setRun a).i = s.i := rfl
@[simp] theorem setRun_pc : (s.setRun a).pc = s.pc := rfl
@[simp] theorem setRun_stack : (s.setRun a).stack = s.stack := rfl
@[simp] theorem setRun_mem : (s.setRun a).mem = s.mem := rfl
@[simp] theorem setRun_fb : (s.setRun a).fb = s.fb := rfl
@[simp] theorem setRun_dt : (s.setRun a).dt = s.dt := rfl
@[simp] theorem setRun_st : (s.setRun a).st = s.st := rfl
@[simp] theorem setRun_key : (s.setRun a).key = s.key := rfl
@[simp] theorem setRun_cycles : (s.setRun a).cycles = s.cycles := rfl
@[simp] theorem setRun_run : (s.setRun a).run = a := rfl
@[simp] theorem setRun_wait : (s.setRun a).wait = s.wait := rfl
@[simp] theorem setRun_pause : (s.setRun a).pause = s.pause := rfl
@[simp] theorem setRun_stop : (s.setRun a).stop = s.stop := rfl
@[simp] theorem setRun_started : (s.setRun a).started = s.started := rfl
@[simp] theorem setRun_draws : (s.setRun a).draws = s.draws := rfl
@[simp] theorem setRun_agenda : (s.setRun a).agenda = s.agenda := rfl
@[simp] theorem setRun_schedule : (s.setRun a).schedule = s.schedule := rfl
@[simp] theorem setRun_events : (s.setRun a).events = s.events := rfl
@[simp] theorem setRun_fbReplies : (s.setRun a).fbReplies = s.fbReplies := rfl
@[simp] theorem setRun_getV (r : RegIdx) : (s.setRun a).getV r = s.getV r := rfl
@[simp] theorem setRun_byteAt (k : Nat) : (s.setRun a).byteAt k = s.byteAt k := rfl
end setRun

section setWait
variable (s : State) (a : RegIdx)
@[simp] theorem setWait_cfg : (s.setWait a).cfg = s.cfg := rfl
@[simp] theorem setWait_v : (s.setWait a).v = s.v := rfl
@[simp] theorem setWait_i : (s.setWait a).i = s.i := rfl
@[simp] theorem setWait_pc : (s.setWait a).pc = s.pc := rfl
@[simp] theorem setWait_stack : (s.setWait a).stack = s.stack := rfl
@[simp] theorem setWait_mem : (s.setWait a).mem = s.mem := rfl
@[simp] theorem setWait_fb : (s.setWait a).fb = s.fb := rfl
@[simp] theorem setWait_dt : (s.setWait a).dt = s.dt := rfl
@[simp] theorem setWait_st : (s.setWait a).st = s.st := rfl
@[simp] theorem setWait_key : (s.setWait a).key = s.key := rfl
@[simp] theorem setWait_cycles : (s.setWait a).cycles = s.cycles := rfl
@[simp] theorem setWait_run : (s.setWait a).run = s.run := rfl
@[simp] theorem setWait_wait : (s.setWait a).wait = a := rfl
@[simp] theorem setWait_pause : (s.setWait a).pause = s.pause := rfl
@[simp] theorem setWait_stop : (s.setWait a).stop = s.stop := rfl
@[simp] theorem setWait_started : (s.setWait a).started = s.started := rfl
@[simp] theorem setWait_draws : (s.setWait a).draws = s.draws := rfl
@[simp] theorem setWait_agenda : (s.setWait a).agenda = s.agenda := rfl
@[simp] theorem setWait_schedule : (s.setWait a).schedule = s.schedule := rfl
@[simp] theorem setWait_events : (s.setWait a).events = s.events := rfl
@[simp] theorem setWait_fbReplies : (s.setWait a).fbReplies = s.fbReplies := rfl
@[simp] theorem setWait_getV (r : RegIdx) : (s.setWait a).getV r = s.getV r := rfl
@[simp] theorem setWait_byteAt (k : Nat) : (s.setWait a).byteAt k = s.byteAt k := rfl
end setWait

section setPause
variable (s : State) (a : Bool)
@[simp] theorem setPause_cfg : (s.setPause a).cfg = s.cfg := rfl
@[simp] theorem setPause_v : (s.setPause a).v = s.v := rfl
@[simp] theorem setPause_i : (s.setPause a).i = s.i := rfl
@[simp] theorem setPause_pc : (s.setPause a).pc = s.pc := rfl
@[simp] theorem setPause_stack : (s.setPause a).stack = s.stack := rfl
@[simp] theorem setPause_mem : (s.setPause a).mem = s.mem := rfl
@[simp] theorem setPause_fb : (s.setPause a).fb = s.fb := rfl
@[simp] theorem setPause_dt : (s.setPause a).dt = s.dt := rfl
@[simp] theorem setPause_st : (s.setPause a).st = s.st := rfl
@[simp] theorem setPause_key : (s.setPause a).key = s.key := rfl
@[simp] theorem setPause_cycles : (s.setPause a).cycles = s.cycles := rfl
@[simp] theorem setPause_run : (s.setPause a).run = s.run := rfl
@[simp] theorem setPause_wait : (s.setPause a).wait = s.wait := rfl
@[simp] theorem setPause_pause : (s.setPause a).pause = a := rfl
@[simp] theorem setPause_stop : (s.setPause a).stop = s.stop := rfl
@[simp] theorem setPause_started : (s.setPause a).started = s.started := rfl
@[simp] theorem setPause_draws : (s.setPause a).draws = s.draws := rfl
@[simp] theorem setPause_agenda : (s.setPause a).agenda = s.agenda := rfl
@[simp] theorem setPause_schedule : (s.setPause a).schedule = s.schedule := rfl
@[simp] theorem setPause_events : (s.setPause a).events = s.events := rfl
@[simp] theorem setPause_fbReplies : (s.setPause a).fbReplies = s.fbReplies := rfl
@[simp] theorem setPause_getV (r : RegIdx) : (s.setPause a).getV r = s.getV r := rfl
@[simp] theorem setPause_byteAt (k : Nat) : (s.setPause a).byteAt k = s.byteAt k := rfl
end setPause

section setStop
variable (s : State) (a : Bool)
@[simp] theorem setStop_cfg : (s.setStop a).cfg = s.cfg := rfl
@[simp] theorem setStop_v : (s.setStop a).v = s.v := rfl
@[simp] theorem setStop_i : (s.setStop a).i = s.i := rfl
@[simp] theorem setStop_pc : (s.setStop a).pc = s.pc := rfl
@[simp] theorem setStop_stack : (s.setStop a).stack = s.stack := rfl
@[simp] theorem setStop_mem : (s.setStop a).mem = s.mem := rfl
@[simp] theorem setStop_fb : (s.setStop a).fb = s.fb := rfl
@[simp] theorem setStop_dt : (s.setStop a).dt = s.dt := rfl
@[simp] theorem setStop_st : (s.setStop a).st = s.st := rfl
@[simp] theorem setStop_key : (s.setStop a).key = s.key := rfl
@[simp] theorem setStop_cycles : (s.setStop a).cycles = s.cycles := rfl
@[simp] theorem setStop_run : (s.setStop a).run = s.run := rfl
@[simp] theorem setStop_wait : (s.setStop a).wait = s.wait := rfl
@[simp] theorem setStop_pause : (s.setStop a).pause = s.pause := rfl
@[simp] theorem setStop_stop : (s.setStop a).stop = a := rfl
@[simp] theorem setStop_started : (s.setStop a).started = s.started := rfl
@[simp] theorem setStop_draws : (s.setStop a).draws = s.draws := rfl
@[simp] theorem setStop_agenda : (s.setStop a).agenda = s.agenda := rfl
@[simp] theorem setStop_schedule : (s.setStop a).schedule = s.schedule := rfl
@[simp] theorem setStop_events : (s.setStop a).events = s.events := rfl
@[simp] theorem setStop_fbReplies : (s.setStop a).fbReplies = s.fbReplies := rfl
@[simp] theorem setStop_getV (r : RegIdx) : (s.setStop a).getV r = s.getV r := rfl
@[simp] theorem setStop_byteAt (k : Nat) : (s.setStop a).byteAt k = s.byteAt k := rfl
end setStop

section setStarted
variable (s : State) (a : Bool)
@[simp] theorem setStarted_cfg : (s.setStarted a).cfg = s.cfg := rfl
@[simp] theorem setStarted_v : (s.setStarted a).v = s.v := rfl
@[simp] theorem setStarted_i : (s.setStarted a).i = s.i := rfl
@[simp] theorem setStarted_pc : (s.setStarted a).pc = s.pc := rfl
@[simp] theorem setStarted_stack : (s.setStarted a).stack = s.stack := rfl
@[simp] theorem setStarted_mem : (s.setStarted a).mem = s.mem := rfl
@[simp] theorem setStarted_fb : (s.setStarted a).fb = s.fb := rfl
@[simp] theorem setStarted_dt : (s.setStarted a).dt = s.dt := rfl
@[simp] theorem setStarted_st : (s.setStarted a).st = s.st := rfl
@[simp] theorem setStarted_key : (s.setStarted a).key = s.key := rfl
@[simp] theorem setStarted_cycles : (s.setStarted a).cycles = s.cycles := rfl
@[simp] theorem setStarted_run : (s.setStarted a).run = s.run := rfl
@[simp] theorem setStarted_wait : (s.setStarted a).wait = s.wait := rfl
@[simp] theorem setStarted_pause : (s.setStarted a).pause = s.pause := rfl
@[simp] theorem setStarted_stop : (s.setStarted a).stop = s.stop := rfl
@[simp] theorem setStarted_started : (s.setStarted a).started = a := rfl
@[simp] theorem setStarted_draws : (s.setStarted a).draws = s.draws := rfl
@[simp] theorem setStarted_agenda : (s.setStarted a).agenda = s.agenda := rfl
@[simp] theorem setStarted_schedule : (s.setStarted a).schedule = s.schedule := rfl
@[simp] theorem setStarted_events : (s.setStarted a).events = s.events := rfl
@[simp] theorem setStarted_fbReplies : (s.setStarted a).fbReplies = s.fbReplies := rfl
@[simp] theorem setStarted_getV (r : RegIdx) : (s.setStarted a).getV r = s.getV r := rfl
@[simp] theorem setStarted_byteAt (k : Nat) : (s.setStarted a).byteAt k = s.byteAt k := rfl
end setStarted

section setDraws
variable (s : State) (a : Nat)
@[simp] theorem setDraws_cfg : (s.setDraws a).cfg = s.cfg := rfl
@[simp] theorem setDraws_v : (s.setDraws a).v = s.v := rfl
@[simp] theorem setDraws_i : (s.setDraws a).i = s.i := rfl
@[simp] theorem setDraws_pc : (s.setDraws a).pc = s.pc := rfl
@[simp] theorem setDraws_stack : (s.setDraws a).stack = s.stack := rfl
@[simp] theorem setDraws_mem : (s.setDraws a).mem = s.mem := rfl
@[simp] theorem setDraws_fb : (s.setDraws a).fb = s.fb := rfl
@[simp] theorem setDraws_dt : (s.setDraws a).dt = s.dt := rfl
@[simp] theorem setDraws_st : (s.setDraws a).st = s.st := rfl
@[simp] theorem setDraws_key : (s.setDraws a).key = s.key := rfl
@[simp] theorem setDraws_cycles : (s.setDraws a).cycles = s.cycles := rfl
@[simp] theorem setDraws_run : (s.setDraws a).run = s.run := rfl
@[simp] theorem setDraws_wait : (s.setDraws a).wait = s.wait := rfl
@[simp] theorem setDraws_pause : (s.setDraws a).pause = s.pause := rfl
@[simp] theorem setDraws_stop : (s.setDraws a).stop = s.stop := rfl
@[simp] theorem setDraws_started : (s.setDraws a).started = s.started := rfl
@[simp] theorem setDraws_draws : (s.setDraws a).draws = a := rfl
@[simp] theorem setDraws_agenda : (s.setDraws a).agenda = s.agenda := rfl
@[simp] theorem setDraws_schedule : (s.setDraws a).schedule = s.schedule := rfl
@[simp] theorem setDraws_events : (s.setDraws a).events = s.events := rfl
@[simp] theorem setDraws_fbReplies : (s.setDraws a).fbReplies = s.fbReplies := rfl
@[simp] theorem setDraws_getV (r : RegIdx) : (s.setDraws a).getV r = s.getV r := rfl
@[simp] theorem setDraws_byteAt (k : Nat) : (s.setDraws a).byteAt k = s.byteAt k := rfl
end setDraws

section setAgenda
variable (s : State) (a : List Turn)
@[simp] theorem setAgenda_cfg : (s.setAgenda a).cfg = s.cfg := rfl
@[simp] theorem setAgenda_v : (s.setAgenda a).v = s.v := rfl
@[simp] theorem setAgenda_i : (s.setAgenda a).i = s.i := rfl
@[simp] theorem setAgenda_pc : (s.setAgenda a).pc = s.pc := rfl
@[simp] theorem setAgenda_stack : (s.setAgenda a).stack = s.stack := rfl
@[simp] theorem setAgenda_mem : (s.setAgenda a).mem = s.mem := rfl
@[simp] theorem setAgenda_fb : (s.setAgenda a).fb = s.fb := rfl
@[simp] theorem setAgenda_dt : (s.setAgenda a).dt = s.dt := rfl
@[simp] theorem setAgenda_st : (s.setAgenda a).st = s.st := rfl
@[simp] theorem setAgenda_key : (s.setAgenda a).key = s.key := rfl
@[simp] theorem setAgenda_cycles : (s.setAgenda a).cycles = s.cycles := rfl
@[simp] theorem setAgenda_run : (s.setAgenda a).run = s.run := rfl
@[simp] theorem setAgenda_wait : (s.setAgenda a).wait = s.wait := rfl
@[simp] theorem setAgenda_pause : (s.setAgenda a).pause = s.pause := rfl
@[simp] theorem setAgenda_stop : (s.setAgenda a).stop = s.stop := rfl
@[simp] theorem setAgenda_started : (s.setAgenda a).started = s.started := rfl
@[simp] theorem setAgenda_draws : (s.setAgenda a).draws = s.draws := rfl
@[simp] theorem setAgenda_agenda : (s.setAgenda a).agenda = a := rfl
@[simp] theorem setAgenda_schedule : (s.setAgenda a).schedule = s.schedule := rfl
@[simp] theorem setAgenda_events : (s.setAgenda a).events = s.events := rfl
@[simp] theorem setAgenda_fbReplies : (s.setAgenda a).fbReplies = s.fbReplies := rfl
@[simp] theorem setAgenda_getV (r : RegIdx) : (s.setAgenda a).getV r = s.getV r := rfl
@[simp] theorem setAgenda_byteAt (k : Nat) : (s.setAgenda a).byteAt k = s.byteAt k := rfl
end setAgenda

section setSchedule
variable (s : State) (a : Schedule)
@[simp] theorem setSchedule_cfg : (s.setSchedule a).cfg = s.cfg := rfl
@[simp] theorem setSchedule_v : (s.setSchedule a).v = s.v := rfl
@[simp] theorem setSchedule_i : (s.setSchedule a).i = s.i := rfl
@[simp] theorem setSchedule_pc : (s.setSchedule a).pc = s.pc := rfl
@[simp] theorem setSchedule_stack : (s.setSchedule a).stack = s.stack := rfl
@[simp] theorem setSchedule_mem : (s.setSchedule a).mem = s.mem := rfl
@[simp] theorem setSchedule_fb : (s.setSchedule a).fb = s.fb := rfl
@[simp] theorem setSchedule_dt : (s.setSchedule a).dt = s.dt := rfl
@[simp] theorem setSchedule_st : (s.setSchedule a).st = s.st := rfl
@[simp] theorem setSchedule_key : (s.setSchedule a).key = s.key := rfl
@[simp] theorem setSchedule_cycles : (s.setSchedule a).cycles = s.cycles := rfl
@[simp] theorem setSchedule_run : (s.setSchedule a).run = s.run := rfl
@[simp] theorem setSchedule_wait : (s.setSchedule a).wait = s.wait := rfl
@[simp] theorem setSchedule_pause : (s.setSchedule a).pause = s.pause := rfl
@[simp] theorem setSchedule_stop : (s.setSchedule a).stop = s.stop := rfl
@[simp] theorem setSchedule_started : (s.setSchedule a).started = s.started := rfl
@[simp] theorem setSchedule_draws : (s.setSchedule a).draws = s.draws := rfl
@[simp] theorem setSchedule_agenda : (s.setSchedule a).agenda = s.agenda := rfl
@[simp] theorem setSchedule_schedule : (s.setSchedule a).schedule = a := rfl
@[simp] theorem setSchedule_events : (s.setSchedule a).events = s.events := rfl
@[simp] theorem setSchedule_fbReplies : (s.setSchedule a).fbReplies = s.fbReplies := rfl
@[simp] theorem setSchedule_getV (r : RegIdx) : (s.setSchedule a).getV r = s.getV r := rfl
@[simp] theorem setSchedule_byteAt (k : Nat) : (s.setSchedule a).byteAt k = s.byteAt k := rfl
end setSchedule

section setEvents
variable (s : State) (a : List OutEvent)
@[simp] theorem setEvents_cfg : (s.setEvents a).cfg = s.cfg := rfl
@[simp] theorem setEvents_v : (s.setEvents a).v = s.v := rfl
@[simp] theorem setEvents_i : (s.setEvents a).i = s.i := rfl
@[simp] theorem setEvents_pc : (s.setEvents a).pc = s.pc := rfl
@[simp] theorem setEvents_stack : (s.setEvents a).stack = s.stack := rfl
@[simp] theorem setEvents_mem : (s.setEvents a).mem = s.mem := rfl
@[simp] theorem setEvents_fb : (s.setEvents a).fb = s.fb := rfl
@[simp] theorem setEvents_dt : (s.setEvents a).dt = s.dt := rfl
@[simp] theorem setEvents_st : (s.setEvents a).st = s.st := rfl
@[simp] theorem setEvents_key : (s.setEvents a).key = s.key := rfl
@[simp] theorem setEvents_cycles : (s.setEvents a).cycles = s.cycles := rfl
@[simp] theorem setEvents_run : (s.setEvents a).run = s.run := rfl
@[simp] theorem setEvents_wait : (s.setEvents a).wait = s.wait := rfl
@[simp] theorem setEvents_pause : (s.setEvents a).pause = s.pause := rfl
@[simp] theorem setEvents_stop : (s.setEvents a).stop = s.stop := rfl
@[simp] theorem setEvents_started : (s.setEvents a).started = s.started := rfl
@[simp] theorem setEvents_draws : (s.setEvents a).draws = s.draws := rfl
@[simp] theorem setEvents_agenda : (s.setEvents a).agenda = s.agenda := rfl
@[simp] theorem setEvents_schedule : (s.setEvents a).schedule = s.schedule := rfl
@[simp] theorem setEvents_events : (s.setEvents a).events = a := rfl
@[simp] theorem setEvents_fbReplies : (s.setEvents a).fbReplies = s.fbReplies := rfl
@[simp] theorem setEvents_getV (r : RegIdx) : (s.setEvents a).getV r = s.getV r := rfl
@[simp] theorem setEvents_byteAt (k : Nat) : (s.setEvents a).byteAt k = s.byteAt k := rfl
end setEvents

section setFbReplies
variable (s : State) (a : List Bool)
@[simp] theorem setFbReplies_cfg : (s.setFbReplies a).cfg = s.cfg := rfl
@[simp] theorem setFbReplies_v : (s.setFbReplies a).v = s.v := rfl
@[simp] theorem setFbReplies_i : (s.setFbReplies a).i = s.i := rfl
@[simp] theorem setFbReplies_pc : (s.setFbReplies a).pc = s.pc := rfl
@[simp] theorem setFbReplies_stack : (s.setFbReplies a).stack = s.stack := rfl
@[simp] theorem setFbReplies_mem : (s.setFbReplies a).mem = s.mem := rfl
@[simp] theorem setFbReplies_fb : (s.setFbReplies a).fb = s.fb := rfl
@[simp] theorem setFbReplies_dt : (s.setFbReplies a).dt = s.dt := rfl
@[simp] theorem setFbReplies_st : (s.setFbReplies a).st = s.st := rfl
@[simp] theorem setFbReplies_key : (s.setFbReplies a).key = s.key := rfl
@[simp] theorem setFbReplies_cycles : (s.setFbReplies a).cycles = s.cycles := rfl
@[simp] theorem setFbReplies_run : (s.setFbReplies a).run = s.run := rfl
@[simp] theorem setFbReplies_wait : (s.setFbReplies a).wait = s.wait := rfl
@[simp] theorem setFbReplies_pause : (s.setFbReplies a).pause = s.pause := rfl
@[simp] theorem setFbReplies_stop : (s.setFbReplies a).stop = s.stop := rfl
@[simp] theorem setFbReplies_started : (s.setFbReplies a).started = s.started := rfl
@[simp] theorem setFbReplies_draws : (s.setFbReplies a).draws = s.draws := rfl
@[simp] theorem setFbReplies_agenda : (s.setFbReplies a).agenda = s.agenda := rfl
@[simp] theorem setFbReplies_schedule : (s.setFbReplies a).schedule = s.schedule := rfl
@[simp] theorem setFbReplies_events : (s.setFbReplies a).events = s.events := rfl
@[simp] theorem setFbReplies_fbReplies : (s.setFbReplies a).fbReplies = a := rfl
@[simp] theorem setFbReplies_getV (r : RegIdx) : (s.setFbReplies a).getV r = s.getV r := rfl
@[simp] theorem setFbReplies_byteAt (k : Nat) : (s.setFbReplies a).byteAt k = s.byteAt k := rfl
end setFbReplies

section setV
variable (s : State) (x : RegIdx) (b : Byte)
@[simp] theorem setV_cfg : (s.setV x b).cfg = s.cfg := rfl
@[simp] theorem setV_i : (s.setV x b).i = s.i := rfl
@[simp] theorem setV_pc : (s.setV x b).pc = s.pc := rfl
@[simp] theorem setV_stack : (s.setV x b).stack = s.stack := rfl
@[simp] theorem setV_mem : (s.setV x b).mem = s.mem := rfl
@[simp] theorem setV_fb : (s.setV x b).fb = s.fb := rfl
@[simp] theorem setV_dt : (s.setV x b).dt = s.dt := rfl
@[simp] theorem setV_st : (s.setV x b).st = s.st := rfl
@[simp] theorem setV_key : (s.setV x b).key = s.key := rfl
@[simp] theorem setV_cycles : (s.setV x b).cycles = s.cycles := rfl
@[simp] theorem setV_run : (s.setV x b).run = s.run := rfl
@[simp] theorem setV_wait : (s.setV x b).wait = s.wait := rfl
@[simp] theorem setV_pause : (s.setV x b).pause = s.pause := rfl
@[simp] theorem setV_stop : (s.setV x b).stop = s.stop := rfl
@[simp] theorem setV_started : (s.setV x b).started = s.started := rfl
@[simp] theorem setV_draws : (s.setV x b).draws = s.draws := rfl
@[simp] theorem setV_agenda : (s.setV x b).agenda = s.agenda := rfl
@[simp] theorem setV_schedule : (s.setV x b).schedule = s.schedule := rfl
@[simp] theorem setV_events : (s.setV x b).events = s.events := rfl
@[simp] theorem setV_fbReplies : (s.setV x b).fbReplies = s.fbReplies := rfl
@[simp] theorem setV_byteAt (k : Nat) : (s.setV x b).byteAt k = s.byteAt k := rfl

/-- Reading a register after a write (10_state.md R21). -/
theorem getV_setV (r : RegIdx) : (s.setV x b).getV r = if x = r then b else s.getV r := by
  simp [State.setV, State.getV, Vector.getElem_set, Fin.ext_iff]

@[simp] theorem getV_setV_same : (s.setV x b).getV x = b := by simp [getV_setV]

theorem getV_setV_ne {r : RegIdx} (h : r ≠ x) : (s.setV x b).getV r = s.getV r := by
  simp [getV_setV, Ne.symm h]
end setV

section emit
variable (s : State) (e : OutEvent)
@[simp] theorem emit_cfg : (s.emit e).cfg = s.cfg := by unfold State.emit; split <;> rfl
@[simp] theorem emit_v : (s.emit e).v = s.v := by unfold State.emit; split <;> rfl
@[simp] theorem emit_i : (s.emit e).i = s.i := by unfold State.emit; split <;> rfl
@[simp] theorem emit_pc : (s.emit e).pc = s.pc := by unfold State.emit; split <;> rfl
@[simp] theorem emit_stack : (s.emit e).stack = s.stack := by unfold State.emit; split <;> rfl
@[simp] theorem emit_mem : (s.emit e).mem = s.mem := by unfold State.emit; split <;> rfl
@[simp] theorem emit_fb : (s.emit e).fb = s.fb := by unfold State.emit; split <;> rfl
@[simp] theorem emit_dt : (s.emit e).dt = s.dt := by unfold State.emit; split <;> rfl
@[simp] theorem emit_st : (s.emit e).st = s.st := by unfold State.emit; split <;> rfl
@[simp] theorem emit_key : (s.emit e).key = s.key := by unfold State.emit; split <;> rfl
@[simp] theorem emit_cycles : (s.emit e).cycles = s.cycles := by unfold State.emit; split <;> rfl
@[simp] theorem emit_run : (s.emit e).run = s.run := by unfold State.emit; split <;> rfl
@[simp] theorem emit_wait : (s.emit e).wait = s.wait := by unfold State.emit; split <;> rfl
@[simp] theorem emit_pause : (s.emit e).pause = s.pause := by unfold State.emit; split <;> rfl
@[simp] theorem emit_stop : (s.emit e).stop = s.stop := by unfold State.emit; split <;> rfl
@[simp] theorem emit_started : (s.emit e).started = s.started := by unfold State.emit; split <;> rfl
@[simp] theorem emit_draws : (s.emit e).draws = s.draws := by unfold State.emit; split <;> rfl
@[simp] theorem emit_agenda : (s.emit e).agenda = s.agenda := by unfold State.emit; split <;> rfl
@[simp] theorem emit_schedule : (s.emit e).schedule = s.schedule := by unfold State.emit; split <;> rfl
@[simp] theorem emit_fbReplies : (s.emit e).fbReplies = s.fbReplies := by unfold State.emit; split <;> rfl
@[simp] theorem emit_getV (r : RegIdx) : (s.emit e).getV r = s.getV r := by unfold State.emit; split <;> rfl
@[simp] theorem emit_byteAt (k : Nat) : (s.emit e).byteAt k = s.byteAt k := by unfold State.emit; split <;> rfl

/-- Emitting appends the event when the environment is bound to it (10_state.md R45). -/
theorem emit_events : (s.emit e).events = if eventBound s.cfg e then s.events ++ [e] else s.events := by
  unfold State.emit; split <;> simp

theorem emit_events_bound (h : eventBound s.cfg e = true) : (s.emit e).events = s.events ++ [e] := by
  simp [emit_events, h]
end emit

section skipIf
variable (c : Bool) (s : State)
@[simp] theorem skipIf_cfg : (skipIf c s).cfg = s.cfg := by cases c <;> rfl
@[simp] theorem skipIf_v : (skipIf c s).v = s.v := by cases c <;> rfl
@[simp] theorem skipIf_i : (skipIf c s).i = s.i := by cases c <;> rfl
@[simp] theorem skipIf_stack : (skipIf c s).stack = s.stack := by cases c <;> rfl
@[simp] theorem skipIf_mem : (skipIf c s).mem = s.mem := by cases c <;> rfl
@[simp] theorem skipIf_fb : (skipIf c s).fb = s.fb := by cases c <;> rfl
@[simp] theorem skipIf_dt : (skipIf c s).dt = s.dt := by cases c <;> rfl
@[simp] theorem skipIf_st : (skipIf c s).st = s.st := by cases c <;> rfl
@[simp] theorem skipIf_key : (skipIf c s).key = s.key := by cases c <;> rfl
@[simp] theorem skipIf_cycles : (skipIf c s).cycles = s.cycles := by cases c <;> rfl
@[simp] theorem skipIf_run : (skipIf c s).run = s.run := by cases c <;> rfl
@[simp] theorem skipIf_wait : (skipIf c s).wait = s.wait := by cases c <;> rfl
@[simp] theorem skipIf_pause : (skipIf c s).pause = s.pause := by cases c <;> rfl
@[simp] theorem skipIf_stop : (skipIf c s).stop = s.stop := by cases c <;> rfl
@[simp] theorem skipIf_started : (skipIf c s).started = s.started := by cases c <;> rfl
@[simp] theorem skipIf_draws : (skipIf c s).draws = s.draws := by cases c <;> rfl
@[simp] theorem skipIf_agenda : (skipIf c s).agenda = s.agenda := by cases c <;> rfl
@[simp] theorem skipIf_schedule : (skipIf c s).schedule = s.schedule := by cases c <;> rfl
@[simp] theorem skipIf_events : (skipIf c s).events = s.events := by cases c <;> rfl
@[simp] theorem skipIf_fbReplies : (skipIf c s).fbReplies = s.fbReplies := by cases c <;> rfl
@[simp] theorem skipIf_getV (r : RegIdx) : (skipIf c s).getV r = s.getV r := by cases c <;> rfl
@[simp] theorem skipIf_byteAt (k : Nat) : (skipIf c s).byteAt k = s.byteAt k := by cases c <;> rfl

/-- Where a skip leads (40_control_flow.md R121). -/
theorem skipIf_pc : (skipIf c s).pc = if c then s.pc + 2 else s.pc := by cases c <;> rfl
end skipIf

section enterFault
variable (f : CpuFault) (s : State)
@[simp] theorem enterFault_cfg : (enterFault f s).cfg = s.cfg := by simp [enterFault]
@[simp] theorem enterFault_v : (enterFault f s).v = s.v := by simp [enterFault]
@[simp] theorem enterFault_i : (enterFault f s).i = s.i := by simp [enterFault]
@[simp] theorem enterFault_pc : (enterFault f s).pc = s.pc := by simp [enterFault]
@[simp] theorem enterFault_stack : (enterFault f s).stack = s.stack := by simp [enterFault]
@[simp] theorem enterFault_mem : (enterFault f s).mem = s.mem := by simp [enterFault]
@[simp] theorem enterFault_fb : (enterFault f s).fb = s.fb := by simp [enterFault]
@[simp] theorem enterFault_dt : (enterFault f s).dt = s.dt := by simp [enterFault]
@[simp] theorem enterFault_st : (enterFault f s).st = s.st := by simp [enterFault]
@[simp] theorem enterFault_key : (enterFault f s).key = s.key := by simp [enterFault]
@[simp] theorem enterFault_cycles : (enterFault f s).cycles = s.cycles := by simp [enterFault]
@[simp] theorem enterFault_wait : (enterFault f s).wait = s.wait := by simp [enterFault]
@[simp] theorem enterFault_pause : (enterFault f s).pause = s.pause := by simp [enterFault]
@[simp] theorem enterFault_stop : (enterFault f s).stop = s.stop := by simp [enterFault]
@[simp] theorem enterFault_started : (enterFault f s).started = s.started := by simp [enterFault]
@[simp] theorem enterFault_draws : (enterFault f s).draws = s.draws := by simp [enterFault]
@[simp] theorem enterFault_agenda : (enterFault f s).agenda = s.agenda := by simp [enterFault]
@[simp] theorem enterFault_schedule : (enterFault f s).schedule = s.schedule := by simp [enterFault]
@[simp] theorem enterFault_fbReplies : (enterFault f s).fbReplies = s.fbReplies := by simp [enterFault]
@[simp] theorem enterFault_run : (enterFault f s).run = .halted f := by simp [enterFault]
@[simp] theorem enterFault_getV (r : RegIdx) : (enterFault f s).getV r = s.getV r := by simp [enterFault]
@[simp] theorem enterFault_byteAt (k : Nat) : (enterFault f s).byteAt k = s.byteAt k := by simp [enterFault]

/-- A fault is always reported, with the snapshot at the raise (60_exceptions.md R246). -/
@[simp] theorem enterFault_events : (enterFault f s).events = s.events ++ [.fault f s.snapshot] := by
  simp [enterFault, emit_events, eventBound]
end enterFault

section hostReset
variable (s : State)
@[simp] theorem hostReset_cfg : (hostReset s).cfg = s.cfg := rfl
@[simp] theorem hostReset_v : (hostReset s).v = State.reset.v := rfl
@[simp] theorem hostReset_i : (hostReset s).i = State.reset.i := rfl
@[simp] theorem hostReset_pc : (hostReset s).pc = State.reset.pc := rfl
@[simp] theorem hostReset_stack : (hostReset s).stack = State.reset.stack := rfl
@[simp] theorem hostReset_mem : (hostReset s).mem = State.reset.mem := rfl
@[simp] theorem hostReset_fb : (hostReset s).fb = State.reset.fb := rfl
@[simp] theorem hostReset_dt : (hostReset s).dt = State.reset.dt := rfl
@[simp] theorem hostReset_st : (hostReset s).st = State.reset.st := rfl
@[simp] theorem hostReset_key : (hostReset s).key = State.reset.key := rfl
@[simp] theorem hostReset_cycles : (hostReset s).cycles = State.reset.cycles := rfl
@[simp] theorem hostReset_run : (hostReset s).run = State.reset.run := rfl
@[simp] theorem hostReset_wait : (hostReset s).wait = State.reset.wait := rfl
@[simp] theorem hostReset_pause : (hostReset s).pause = s.pause := rfl
@[simp] theorem hostReset_stop : (hostReset s).stop = State.reset.stop := rfl
@[simp] theorem hostReset_started : (hostReset s).started = State.reset.started := rfl
@[simp] theorem hostReset_draws : (hostReset s).draws = s.draws := rfl
@[simp] theorem hostReset_agenda : (hostReset s).agenda = s.agenda := rfl
@[simp] theorem hostReset_schedule : (hostReset s).schedule = s.schedule := rfl
@[simp] theorem hostReset_events : (hostReset s).events = s.events := rfl
@[simp] theorem hostReset_fbReplies : (hostReset s).fbReplies = s.fbReplies := rfl
end hostReset

end Sys2Proof.Machine
end

