-- ==== Sys2Proof/Laws/Display.lean ====
section
/-! SUPPORT. Laws/Display.lean: what a pixel read sees after each operation of the compositor. -/

namespace Sys2Proof.Machine

/-- The two coordinate pairs name one cell (43_display.md R191). -/
def sameCell (x y x' y' : Nat) : Bool := decide (x % 64 = x' % 64 ∧ y % 32 = y' % 32)

/-- A pixel read after a pixel write (R191, R192). -/
theorem fbRead_fbWrite (fb : Framebuffer) (x y x' y' : Nat) (b : Bool) :
    fbRead (fbWrite fb x y b) x' y' = if sameCell x y x' y' then b else fbRead fb x' y' := by
  unfold fbRead fbWrite sameCell
  simp only [Vector.getElem_set]
  by_cases hy : y % 32 = y' % 32
  · simp only [hy, if_true, Vector.getElem_set]
    by_cases hx : x % 64 = x' % 64 <;> simp [hx]
  · simp [hy]

theorem fbRead_fbReset (x y : Nat) : fbRead fbReset x y = false := by simp [fbRead, fbReset]

/-- Only the wrapped coordinates matter. -/
theorem fbRead_congr (fb : Framebuffer) {x y x' y' : Nat} (h : sameCell x y x' y' = true) :
    fbRead fb x y = fbRead fb x' y' := by
  simp only [sameCell, decide_eq_true_eq] at h
  unfold fbRead
  congr 1
  · congr 1; exact h.2
  · exact h.1

/-- One sprite bit: its cell is inverted when the bit is set (R194). -/
theorem drawPixel_read (x y : Nat) (bit : Bool) (c : Canvas) (x' y' : Nat) :
    fbRead (drawPixel x y bit c).fb x' y' = (fbRead c.fb x' y' ^^ (bit && sameCell x y x' y')) := by
  cases bit
  · simp [drawPixel]
  · simp only [drawPixel, if_true, fbRead_fbWrite, Bool.true_and]
    split
    · rename_i h
      rw [fbRead_congr c.fb h, h, Bool.xor_true]
    · rename_i h
      simp [Bool.eq_false_iff.mpr h]

/-- One sprite bit collides when it is set over a set pixel (R197). -/
theorem drawPixel_hit (x y : Nat) (bit : Bool) (c : Canvas) :
    (drawPixel x y bit c).hit = (c.hit || (bit && fbRead c.fb x y)) := by
  cases bit <;> simp [drawPixel]

/-- Some set bit among the last `n` columns of a sprite row drawn at (x0, y) lands on the cell of (x', y'). -/
def ColsCover (x0 y : Nat) (b : Byte) (n x' y' : Nat) : Prop :=
  ∃ k, 8 - n ≤ k ∧ k < 8 ∧ spriteBit b k = true ∧ sameCell (x0 + k) y x' y' = true

theorem drawCols_read (x0 y : Nat) (b : Byte) (n : Nat) (hn : n ≤ 8) (c : Canvas) (x' y' : Nat) :
    (ColsCover x0 y b n x' y' → fbRead (drawCols x0 y b n c).fb x' y' = !fbRead c.fb x' y') ∧
    (¬ ColsCover x0 y b n x' y' → fbRead (drawCols x0 y b n c).fb x' y' = fbRead c.fb x' y') := by
  induction n generalizing c with
  | zero =>
    refine ⟨?_, fun _ => rfl⟩
    rintro ⟨k, h1, h2, -⟩
    omega
  | succ n ih =>
    have ih := ih (by omega) (drawPixel (x0 + (7 - n)) y (spriteBit b (7 - n)) c)
    rw [drawPixel_read] at ih
    rw [drawCols]
    by_cases hf : (spriteBit b (7 - n) && sameCell (x0 + (7 - n)) y x' y') = true
    · have none : ¬ ColsCover x0 y b n x' y' := by
        rintro ⟨k, h1, h2, -, h4⟩
        have h5 := (Bool.and_eq_true _ _ ▸ hf).2
        simp only [sameCell, decide_eq_true_eq] at h4 h5
        omega
      rw [hf, Bool.xor_true] at ih
      rw [Bool.and_eq_true] at hf
      exact ⟨fun _ => ih.2 none, fun h => absurd ⟨7 - n, by omega, by omega, hf.1, hf.2⟩ h⟩
    · rw [Bool.eq_false_iff.mpr hf, Bool.xor_false] at ih
      rw [Bool.and_eq_true] at hf
      have same : ColsCover x0 y b (n + 1) x' y' ↔ ColsCover x0 y b n x' y' := by
        refine ⟨?_, ?_⟩ <;> rintro ⟨k, h1, h2, h3, h4⟩
        · by_cases hk : k = 7 - n
          · subst hk; exact absurd ⟨h3, h4⟩ hf
          · exact ⟨k, by omega, h2, h3, h4⟩
        · exact ⟨k, by omega, h2, h3, h4⟩
      rwa [same]

theorem drawCols_hit (x0 y : Nat) (b : Byte) (n : Nat) (hn : n ≤ 8) (c : Canvas) :
    (drawCols x0 y b n c).hit = true ↔ c.hit = true ∨
      ∃ k, 8 - n ≤ k ∧ k < 8 ∧ spriteBit b k = true ∧ fbRead c.fb (x0 + k) y = true := by
  induction n generalizing c with
  | zero =>
    refine ⟨.inl, ?_⟩
    rintro (h | ⟨k, h1, h2, -⟩)
    · exact h
    · omega
  | succ n ih =>
    have other : ∀ k, 8 - n ≤ k → k < 8 →
        fbRead (drawPixel (x0 + (7 - n)) y (spriteBit b (7 - n)) c).fb (x0 + k) y = fbRead c.fb (x0 + k) y := by
      intro k h1 h2
      have : sameCell (x0 + (7 - n)) y (x0 + k) y = false := by simp [sameCell]; omega
      rw [drawPixel_read, this, Bool.and_false, Bool.xor_false]
    rw [drawCols, ih (by omega), drawPixel_hit, Bool.or_eq_true, Bool.and_eq_true]
    refine ⟨?_, ?_⟩
    · rintro ((h | h) | ⟨k, h1, h2, h3, h4⟩)
      · exact .inl h
      · exact .inr ⟨7 - n, by omega, by omega, h.1, h.2⟩
      · exact .inr ⟨k, by omega, h2, h3, by rwa [other k h1 h2] at h4⟩
    · rintro (h | ⟨k, h1, h2, h3, h4⟩)
      · exact .inl (.inl h)
      · by_cases hk : k = 7 - n
        · subst hk; exact .inl (.inr ⟨h3, h4⟩)
        · exact .inr ⟨k, by omega, h2, h3, by rw [other k (by omega) h2]; exact h4⟩

/-- Some set bit of a sprite row drawn at (x0, y) lands on the cell of (x', y'). -/
def RowCovers (x0 y : Nat) (b : Byte) (x' y' : Nat) : Prop :=
  ∃ k, k < 8 ∧ spriteBit b k = true ∧ sameCell (x0 + k) y x' y' = true

/-- A sprite row inverts the cells it covers. -/
theorem drawRow_read_covered {x0 y x' y' : Nat} {b : Byte} (c : Canvas) (h : RowCovers x0 y b x' y') :
    fbRead (drawRow x0 y b c).fb x' y' = !fbRead c.fb x' y' := by
  obtain ⟨k, h1, h2, h3⟩ := h
  exact (drawCols_read _ _ _ _ (by omega) _ _ _).1 ⟨k, by omega, h1, h2, h3⟩

/-- A sprite row leaves every other cell alone. -/
theorem drawRow_read_other {x0 y x' y' : Nat} {b : Byte} (c : Canvas) (h : ¬ RowCovers x0 y b x' y') :
    fbRead (drawRow x0 y b c).fb x' y' = fbRead c.fb x' y' := by
  refine (drawCols_read _ _ _ _ (by omega) _ _ _).2 ?_
  rintro ⟨k, -, h1, h2, h3⟩
  exact h ⟨k, h1, h2, h3⟩

/-- A sprite row, as the collision sees it. -/
theorem drawRow_hit (x0 y : Nat) (b : Byte) (c : Canvas) :
    (drawRow x0 y b c).hit = true ↔ c.hit = true ∨
      ∃ k, k < 8 ∧ spriteBit b k = true ∧ fbRead c.fb (x0 + k) y = true := by
  rw [drawRow, drawCols_hit _ _ _ _ (by omega)]
  simp

end Sys2Proof.Machine
end

