-- ==== Sys2Proof/Laws/Encoding.lean ====
section
/-! SUPPORT. Laws/Encoding.lean: the fields of a word that was put together from its fields (30_encoding.md R91, R92). -/

namespace Sys2Proof

theorem getLsbD_a (a : BitVec 4) (n : BitVec 12) (k : Nat) :
    BitVec.getLsbD (w := 16) (a ++ n) k = if k < 12 then n.getLsbD k else a.getLsbD (k - 12) :=
  BitVec.getLsbD_append

theorem getLsbD_ri (a x : BitVec 4) (n : BitVec 8) (k : Nat) :
    BitVec.getLsbD (w := 16) (a ++ x ++ n) k =
      if k < 8 then n.getLsbD k else if k - 8 < 4 then x.getLsbD (k - 8) else a.getLsbD (k - 8 - 4) :=
  BitVec.getLsbD_append.trans (by congr 1; exact BitVec.getLsbD_append)

theorem getLsbD_rr (a x y n : BitVec 4) (k : Nat) :
    BitVec.getLsbD (w := 16) (a ++ x ++ y ++ n) k =
      if k < 4 then n.getLsbD k else if k - 4 < 4 then y.getLsbD (k - 4)
        else if k - 4 - 4 < 4 then x.getLsbD (k - 4 - 4) else a.getLsbD (k - 4 - 4 - 4) :=
  BitVec.getLsbD_append.trans (by
    congr 1
    exact BitVec.getLsbD_append.trans (by congr 1; exact BitVec.getLsbD_append))

/-! Format A. -/

@[simp] theorem opField_a (a : BitVec 4) (n : BitVec 12) : opField (a ++ n) = a := by
  apply BitVec.eq_of_getLsbD_eq
  intro k hk
  simp [opField, getLsbD_a, hk]

@[simp] theorem nnnField_a (a : BitVec 4) (n : BitVec 12) : nnnField (a ++ n) = n := by
  apply BitVec.eq_of_getLsbD_eq
  intro k hk
  simp [nnnField, getLsbD_a, hk]

/-! Formats RI and RF. -/

@[simp] theorem opField_ri (a x : BitVec 4) (n : BitVec 8) : opField (a ++ x ++ n) = a := by
  apply BitVec.eq_of_getLsbD_eq
  intro k hk
  simp [opField, getLsbD_ri, hk, show ¬ 12 + k < 8 by omega, show ¬ 12 + k - 8 < 4 by omega,
    show 12 + k - 8 - 4 = k by omega]

@[simp] theorem xField_ri (a : BitVec 4) (x : RegIdx) (n : BitVec 8) : xField (a ++ fieldBits x ++ n) = x := by
  have : BitVec.extractLsb' (n := 16) 8 4 (a ++ fieldBits x ++ n) = fieldBits x := by
    apply BitVec.eq_of_getLsbD_eq
    intro k hk
    simp [getLsbD_ri, hk]
  rw [xField, this]
  rfl

@[simp] theorem nnField_ri (a x : BitVec 4) (n : BitVec 8) : nnField (a ++ x ++ n) = n := by
  apply BitVec.eq_of_getLsbD_eq
  intro k hk
  simp [nnField, getLsbD_ri, hk]

/-! Formats RR and RRN. -/

@[simp] theorem opField_rr (a x y n : BitVec 4) : opField (a ++ x ++ y ++ n) = a := by
  apply BitVec.eq_of_getLsbD_eq
  intro k hk
  simp [opField, getLsbD_rr, hk, show ¬ 12 + k < 4 by omega, show ¬ 12 + k - 4 < 4 by omega,
    show ¬ 12 + k - 4 - 4 < 4 by omega, show 12 + k - 4 - 4 - 4 = k by omega]

@[simp] theorem xField_rr (a : BitVec 4) (x : RegIdx) (y n : BitVec 4) : xField (a ++ fieldBits x ++ y ++ n) = x := by
  have : BitVec.extractLsb' (n := 16) 8 4 (a ++ fieldBits x ++ y ++ n) = fieldBits x := by
    apply BitVec.eq_of_getLsbD_eq
    intro k hk
    simp [getLsbD_rr, hk, show ¬ 8 + k < 4 by omega, show ¬ 8 + k - 4 < 4 by omega, show 8 + k - 4 - 4 = k by omega]
  rw [xField, this]
  rfl

@[simp] theorem yField_rr (a x : BitVec 4) (y : RegIdx) (n : BitVec 4) : yField (a ++ x ++ fieldBits y ++ n) = y := by
  have : BitVec.extractLsb' (n := 16) 4 4 (a ++ x ++ fieldBits y ++ n) = fieldBits y := by
    apply BitVec.eq_of_getLsbD_eq
    intro k hk
    simp [getLsbD_rr, hk]
  rw [yField, this]
  rfl

@[simp] theorem fn4Field_rr (a x y n : BitVec 4) : fn4Field (a ++ x ++ y ++ n) = n := by
  apply BitVec.eq_of_getLsbD_eq
  intro k hk
  simp [fn4Field, getLsbD_rr, hk]

@[simp] theorem nField_rrn (a x y : BitVec 4) (n : Fin 16) : nField (a ++ x ++ y ++ fieldBits n) = n := by
  have : BitVec.extractLsb' (n := 16) 0 4 (a ++ x ++ y ++ fieldBits n) = fieldBits n := fn4Field_rr a x y (fieldBits n)
  rw [nField, this]
  rfl

/-! The other direction: a word is put together again from its fields. -/

theorem fields_a {w : Word} {a : BitVec 4} (h : opField w = a) : a ++ nnnField w = w := by
  subst h
  apply BitVec.eq_of_getLsbD_eq
  intro k hk
  rw [getLsbD_a]
  split
  · simp [nnnField, *]
  · simp [opField, show k - 12 < 4 by omega, show 12 + (k - 12) = k by omega]

theorem fields_ri {w : Word} {a : BitVec 4} {n : Byte} (h : opField w = a) (hn : nnField w = n) :
    a ++ fieldBits (xField w) ++ n = w := by
  subst h
  subst hn
  rw [show fieldBits (xField w) = w.extractLsb' 8 4 from rfl]
  apply BitVec.eq_of_getLsbD_eq
  intro k hk
  rw [getLsbD_ri]
  split
  · simp [nnField, *]
  · split
    · simp [*, show 8 + (k - 8) = k by omega]
    · simp [opField, show 12 + (k - 8 - 4) = k by omega]; omega

theorem fields_rr {w : Word} {a n : BitVec 4} (h : opField w = a) (hn : fn4Field w = n) :
    a ++ fieldBits (xField w) ++ fieldBits (yField w) ++ n = w := by
  subst h
  subst hn
  rw [show fieldBits (xField w) = w.extractLsb' 8 4 from rfl, show fieldBits (yField w) = w.extractLsb' 4 4 from rfl]
  apply BitVec.eq_of_getLsbD_eq
  intro k hk
  rw [getLsbD_rr]
  split
  · simp [fn4Field, *]
  · split
    · simp [*, show 4 + (k - 4) = k by omega]
    · split
      · simp [*, show 8 + (k - 4 - 4) = k by omega]
      · simp [opField, show 12 + (k - 4 - 4 - 4) = k by omega]; omega

/-- A nibble has 16 values. -/
theorem nibble_cases (b : BitVec 4) : b = 0 ∨ b = 1 ∨ b = 2 ∨ b = 3 ∨ b = 4 ∨ b = 5 ∨ b = 6 ∨ b = 7 ∨ b = 8 ∨ b = 9 ∨
    b = 10 ∨ b = 11 ∨ b = 12 ∨ b = 13 ∨ b = 14 ∨ b = 15 := by
  have h : ∀ i : Fin 16, BitVec.ofFin i = 0#4 ∨ BitVec.ofFin i = 1#4 ∨ BitVec.ofFin i = 2#4 ∨ BitVec.ofFin i = 3#4 ∨
    BitVec.ofFin i = 4#4 ∨ BitVec.ofFin i = 5#4 ∨ BitVec.ofFin i = 6#4 ∨ BitVec.ofFin i = 7#4 ∨ BitVec.ofFin i = 8#4 ∨
    BitVec.ofFin i = 9#4 ∨ BitVec.ofFin i = 10#4 ∨ BitVec.ofFin i = 11#4 ∨ BitVec.ofFin i = 12#4 ∨
    BitVec.ofFin i = 13#4 ∨ BitVec.ofFin i = 14#4 ∨ BitVec.ofFin i = 15#4 := by decide
  exact h b.toFin

/-- The words of one top nibble: what holds of the decoding of each of the 16 groups holds of every decoding (R94). -/
theorem decodeWord_cases (w : Word) (P : Except Reject Instr → Prop)
    (h0 : opField w = 0 → P (.ok (decodeOp0 w))) (h1 : opField w = 1 → P (.ok (.jp (nnnField w))))
    (h2 : opField w = 2 → P (.ok (.call (nnnField w)))) (h3 : opField w = 3 → P (.ok (.seImm (xField w) (nnField w))))
    (h4 : opField w = 4 → P (.ok (.sneImm (xField w) (nnField w))))
    (h5 : opField w = 5 → P (if fn4Field w = 0 then .ok (.seReg (xField w) (yField w)) else .error (.illegal w)))
    (h6 : opField w = 6 → P (.ok (.ldImm (xField w) (nnField w))))
    (h7 : opField w = 7 → P (.ok (.addImm (xField w) (nnField w)))) (h8 : opField w = 8 → P (decodeOp8 w))
    (h9 : opField w = 9 → P (if fn4Field w = 0 then .ok (.sneReg (xField w) (yField w)) else .error (.illegal w)))
    (ha : opField w = 10 → P (.ok (.ldI (nnnField w)))) (hb : opField w = 11 → P (.ok (.jpV0 (nnnField w))))
    (hc : opField w = 12 → P (.ok (.rnd (xField w) (nnField w))))
    (hd : opField w = 13 → P (.ok (.drw (xField w) (yField w) (nField w)))) (he : opField w = 14 → P (decodeOpE w))
    (hf : opField w = 15 → P (decodeOpF w)) : P (decodeWord w) := by
  unfold decodeWord
  rcases nibble_cases (opField w) with e | e | e | e | e | e | e | e | e | e | e | e | e | e | e | e <;> simp only [e]
  exacts [h0 e, h1 e, h2 e, h3 e, h4 e, h5 e, h6 e, h7 e, h8 e, h9 e, ha e, hb e, hc e, hd e, he e, hf e]

/-! The two bytes of a word. -/

@[simp] theorem wordOfBytes_hi_lo (w : Word) : wordOfBytes (hiByte w) (loByte w) = w := by
  apply BitVec.eq_of_getLsbD_eq
  intro k hk
  have : BitVec.getLsbD (w := 16) (hiByte w ++ loByte w) k =
    if k < 8 then (loByte w).getLsbD k else (hiByte w).getLsbD (k - 8) := BitVec.getLsbD_append
  rw [wordOfBytes, this]
  by_cases h : k < 8
  · simp [h, loByte]
  · simp [h, hiByte, show k - 8 < 8 by omega, show 8 + (k - 8) = k by omega]

end Sys2Proof
end

