-- ==== Sys2Proof/Laws/Memory.lean ====
section
/-! SUPPORT. Laws/Memory.lean: what a read sees after each operation on MEM, and that every operation keeps the canonical
form. -/

namespace Sys2Proof.Machine

/-! What a read sees. -/

theorem find_filter_ne (m : Memory) (a k : Nat) :
    Memory.find (m.filter (fun p => p.1 ≠ a)) k = if k = a then none else Memory.find m k := by
  induction m with
  | nil => simp [Memory.find]
  | cons p m ih =>
    obtain ⟨j, b⟩ := p
    by_cases hj : j = a
    · subst hj
      have : ((j, b) :: m).filter (fun p : Host.Cell => p.1 ≠ j) = m.filter (fun p => p.1 ≠ j) := by simp
      rw [this, ih]
      by_cases hk : k = j
      · simp [hk]
      · simp [hk, Memory.find, Ne.symm hk]
    · have : ((j, b) :: m).filter (fun p : Host.Cell => p.1 ≠ a) = (j, b) :: m.filter (fun p => p.1 ≠ a) := by
        simp [hj]
      rw [this]
      simp only [Memory.find, ih]
      by_cases hk : j = k
      · subst hk; simp [hj]
      · simp [hk]

theorem find_insert (m : Memory) (a k : Nat) (b : Byte) :
    Memory.find (Memory.insert m a b) k = if k = a then some b else Memory.find m k := by
  induction m with
  | nil => simp [Memory.insert, Memory.find, eq_comm]
  | cons p m ih =>
    obtain ⟨j, c⟩ := p
    simp only [Memory.insert]
    split
    · simp only [Memory.find, ih]
      by_cases hk : k = a
      · simp [hk]; omega
      · simp [hk]
    · split
      · rename_i hj
        subst hj
        simp only [Memory.find]
        by_cases hk : k = j
        · simp [hk]
        · simp [hk, Ne.symm hk]
      · simp only [Memory.find]
        by_cases hk : k = a
        · simp [hk]
        · simp [hk, Ne.symm hk]

/-- Read after write (20_memory.md R62): the written address gives the byte, every other address what it gave. -/
theorem read_write (c : Config) (m : Memory) (a k : Nat) (b : Byte) :
    Memory.read c (Memory.write c m a b) k = if k = a then b else Memory.read c m k := by
  unfold Memory.read Memory.write
  split
  · rw [find_filter_ne]
    split
    · subst_vars; simp
    · rfl
  · rw [find_insert]
    split <;> rfl

theorem find_filter_lt (m : Memory) (n k : Nat) :
    Memory.find (m.filter (fun p => p.1 < n)) k = if k < n then Memory.find m k else none := by
  induction m with
  | nil => simp [Memory.find]
  | cons p m ih =>
    obtain ⟨j, b⟩ := p
    simp only [List.filter_cons]
    split <;> rename_i h <;> simp only [decide_eq_true_eq] at h <;> simp only [Memory.find, ih]
    · by_cases hk : j = k
      · subst hk; simp [h]
      · simp [hk]
    · by_cases hk : j = k
      · subst hk; simp [h]
      · simp [hk]

theorem find_append (m m' : Memory) (k : Nat) :
    Memory.find (m ++ m') k = (Memory.find m k).or (Memory.find m' k) := by
  induction m with
  | nil => simp [Memory.find]
  | cons p m ih =>
    obtain ⟨j, b⟩ := p
    simp only [List.cons_append, Memory.find]
    split <;> simp [ih]

theorem find_cellsFrom (bs : List Byte) (a k : Nat) :
    (Memory.find (Memory.cellsFrom a bs) k).getD 0 = if a ≤ k then bs.getD (k - a) 0 else 0 := by
  induction bs generalizing a with
  | nil => simp [Memory.cellsFrom, Memory.find]
  | cons b bs ih =>
    have step : (if a + 1 ≤ k then bs.getD (k - (a + 1)) 0 else 0)
        = if k = a then 0 else if a ≤ k then (b :: bs).getD (k - a) 0 else 0 := by
      rcases Nat.lt_trichotomy k a with h | h | h
      · simp [show ¬ a ≤ k by omega, show ¬ a + 1 ≤ k by omega]
      · simp [h]
      · have : k - a = (k - (a + 1)) + 1 := by omega
        simp [show a ≤ k by omega, show a + 1 ≤ k by omega, show k ≠ a by omega, this]
    simp only [Memory.cellsFrom]
    split
    · rw [ih, step]
      subst_vars
      by_cases hk : k = a
      · simp [hk]
      · simp [hk]
    · simp only [Memory.find]
      by_cases hk : k = a
      · simp [hk]
      · rw [if_neg (Ne.symm hk), ih, step, if_neg hk]

theorem resetByte_eq_zero (c : Config) {a : Nat} (h : 80 ≤ a) : Memory.resetByte c a = 0 := by
  simp [Memory.resetByte, show ¬ a < 80 by omega]

theorem find_cellsFrom_lt (bs : List Byte) {a k : Nat} (h : k < a) : Memory.find (Memory.cellsFrom a bs) k = none := by
  induction bs generalizing a with
  | nil => rfl
  | cons b bs ih =>
    simp only [Memory.cellsFrom]
    split
    · exact ih (by omega)
    · simp only [Memory.find, show a ≠ k by omega, if_false]
      exact ih (by omega)

/-- What MEM holds after `load` (70_reset_and_hazards.md R283). -/
theorem read_load (c : Config) (m : Memory) (bytes : List Byte) (k : Nat) :
    Memory.read c (Memory.load c m bytes) k =
      if k < progBase then Memory.read c m k else (bytes.take (c.memSize - progBase)).getD (k - progBase) 0 := by
  unfold Memory.read Memory.load
  rw [find_append, find_filter_lt]
  split
  · rename_i h
    rw [find_cellsFrom_lt _ h]
    cases Memory.find m k <;> rfl
  · rename_i h
    have h80 : 80 ≤ k := by simp [progBase] at h; omega
    rw [resetByte_eq_zero c h80, Option.none_or, find_cellsFrom, if_pos (by omega)]

/-! The canonical form. -/

theorem wf_iff (c : Config) (m : Memory) : Memory.wf c m = true ↔
    m.Pairwise (fun p q => p.1 < q.1) ∧ ∀ p ∈ m, p.1 < c.memSize ∧ p.2 ≠ Memory.resetByte c p.1 := by
  simp [Memory.wf]

theorem wf_nil (c : Config) : Memory.wf c [] = true := rfl

theorem wf_filter {c : Config} {m : Memory} (q : Host.Cell → Bool) (h : Memory.wf c m = true) :
    Memory.wf c (m.filter q) = true := by
  rw [wf_iff] at *
  exact ⟨h.1.filter q, fun p hp => h.2 p (List.mem_filter.mp hp).1⟩

theorem mem_insert {m : Memory} {a : Nat} {b : Byte} {p : Host.Cell} (h : p ∈ Memory.insert m a b) :
    p = (a, b) ∨ p ∈ m := by
  induction m with
  | nil => simpa [Memory.insert] using h
  | cons q m ih =>
    obtain ⟨j, c⟩ := q
    simp only [Memory.insert] at h
    split at h
    · rcases List.mem_cons.mp h with h | h
      · exact .inr (by simp [h])
      · rcases ih h with h | h
        · exact .inl h
        · exact .inr (List.mem_cons_of_mem _ h)
    · split at h
      · rcases List.mem_cons.mp h with h | h
        · exact .inl h
        · exact .inr (List.mem_cons_of_mem _ h)
      · rcases List.mem_cons.mp h with h | h
        · exact .inl h
        · exact .inr h

theorem pairwise_insert {m : Memory} (a : Nat) (b : Byte) (h : m.Pairwise (fun p q => p.1 < q.1)) :
    (Memory.insert m a b).Pairwise (fun p q => p.1 < q.1) := by
  induction m with
  | nil => simp [Memory.insert]
  | cons q m ih =>
    obtain ⟨j, c⟩ := q
    rw [List.pairwise_cons] at h
    simp only [Memory.insert]
    split
    · refine List.pairwise_cons.mpr ⟨fun p hp => ?_, ih h.2⟩
      rcases mem_insert hp with rfl | hp
      · assumption
      · exact h.1 p hp
    · split
      · subst_vars
        exact List.pairwise_cons.mpr ⟨fun p hp => h.1 p hp, h.2⟩
      · refine List.pairwise_cons.mpr ⟨fun p hp => ?_, List.pairwise_cons.mpr h⟩
        rcases List.mem_cons.mp hp with rfl | hp
        · simp; omega
        · have := h.1 p hp
          simp at this ⊢; omega

/-- A write in range keeps the canonical form. -/
theorem wf_write {c : Config} {m : Memory} {a : Nat} (b : Byte) (h : Memory.wf c m = true) (ha : a < c.memSize) :
    Memory.wf c (Memory.write c m a b) = true := by
  unfold Memory.write
  split
  · exact wf_filter _ h
  · rw [wf_iff] at *
    refine ⟨pairwise_insert a b h.1, fun p hp => ?_⟩
    rcases mem_insert hp with rfl | hp
    · exact ⟨ha, by assumption⟩
    · exact h.2 p hp

theorem mem_cellsFrom {bs : List Byte} {a : Nat} {p : Host.Cell} (h : p ∈ Memory.cellsFrom a bs) :
    a ≤ p.1 ∧ p.1 < a + bs.length ∧ p.2 ≠ 0 := by
  induction bs generalizing a with
  | nil => simp [Memory.cellsFrom] at h
  | cons b bs ih =>
    simp only [Memory.cellsFrom] at h
    split at h
    · have := ih h
      simp only [List.length_cons]
      exact ⟨by omega, by omega, this.2.2⟩
    · rcases List.mem_cons.mp h with rfl | h
      · simp only [List.length_cons]
        exact ⟨by omega, by omega, by assumption⟩
      · have := ih h
        simp only [List.length_cons]
        exact ⟨by omega, by omega, this.2.2⟩

theorem pairwise_cellsFrom (bs : List Byte) (a : Nat) :
    (Memory.cellsFrom a bs).Pairwise (fun p q => p.1 < q.1) := by
  induction bs generalizing a with
  | nil => simp [Memory.cellsFrom]
  | cons b bs ih =>
    simp only [Memory.cellsFrom]
    split
    · exact ih _
    · refine List.pairwise_cons.mpr ⟨fun p hp => ?_, ih _⟩
      have := mem_cellsFrom hp
      simp; omega

/-- A load keeps the canonical form. -/
theorem wf_load {c : Config} {m : Memory} (bytes : List Byte) (h : Memory.wf c m = true) :
    Memory.wf c (Memory.load c m bytes) = true := by
  have hf := wf_filter (fun p => decide (p.1 < progBase)) h
  rw [wf_iff] at *
  unfold Memory.load
  refine ⟨List.pairwise_append.mpr ⟨hf.1, pairwise_cellsFrom _ _, fun p hp q hq => ?_⟩, fun p hp => ?_⟩
  · have := mem_cellsFrom hq
    have hp := (List.mem_filter.mp hp).2
    simp at hp
    omega
  · rcases List.mem_append.mp hp with hp | hp
    · exact hf.2 p hp
    · obtain ⟨h1, h2, h3⟩ := mem_cellsFrom hp
      simp only [List.length_take] at h2
      have h80 : 80 ≤ p.1 := by simp [progBase] at h1; omega
      rw [resetByte_eq_zero c h80]
      exact ⟨by omega, h3⟩

/-! The same on the state. -/

/-- Read after write on the state. -/
theorem byteAt_write (s : State) (a k : Nat) (b : Byte) :
    (s.setMem (Memory.write s.cfg s.mem a b)).byteAt k = if k = a then b else s.byteAt k :=
  read_write s.cfg s.mem a k b

/-- Memory right after reset lists nothing, which is canonical. -/
theorem wf_reset : Memory.wf State.reset.cfg State.reset.mem = true := by decide

theorem byteAt_reset (a : Nat) : State.reset.byteAt a = Memory.resetByte Config.default a := rfl

end Sys2Proof.Machine
end

