-- ==== Sys2Proof/Laws/Ops.lean ====
section
/-! SUPPORT. Laws/Ops.lean: for each shared operation one lemma that says everything it can do. -/

namespace Sys2Proof.Machine

/-! Memory primitives (20_memory.md R61, R62). -/

theorem memRead_in {s : State} {a : Nat} (h : a < s.cfg.memSize) : memRead s a = .ok (s.byteAt a) := by
  simp [memRead, h]

theorem memRead_out {s : State} {a : Nat} (h : s.cfg.memSize ≤ a) : memRead s a = .error (.outOfBounds a) := by
  simp [memRead, show ¬ a < s.cfg.memSize by omega]

theorem memWrite_in {s : State} {a : Nat} (b : Byte) (h : a < s.cfg.memSize) :
    memWrite s a b = .ok (s.setMem (Memory.write s.cfg s.mem a b)) := by
  simp [memWrite, h]

theorem memWrite_out {s : State} {a : Nat} (b : Byte) (h : s.cfg.memSize ≤ a) :
    memWrite s a b = .error (.outOfBounds a) := by
  simp [memWrite, show ¬ a < s.cfg.memSize by omega]

/-! The stack (10_state.md R26, R27). -/

theorem pop_nil {s : State} (h : s.stack = []) : pop s = .error .stackUnderflow := by simp [pop, h]

theorem pop_cons {s : State} {a : Word} {rest : List Word} (h : s.stack = a :: rest) :
    pop s = .ok (a, s.setStack rest) := by simp [pop, h]

theorem push_room {s : State} (a : Word) (h : s.stackFull = false) : push s a = .ok (s.setStack (a :: s.stack)) := by
  simp [push, h]

theorem push_full {s : State} (a : Word) (h : s.stackFull = true) : push s a = .error .stackOverflow := by
  simp [push, h]

theorem stackFull_iff (s : State) : s.stackFull = true ↔ ∃ d, s.cfg.stackDepth = some d ∧ d ≤ s.stack.length := by
  unfold State.stackFull
  cases s.cfg.stackDepth <;> simp

/-! Storing and loading bytes (42_index_memory.md R176 to R180). -/

/-- Everything `storeBytes` can do: it writes the bytes that lie in MEM, and ends in a fault at the first that does not. -/
theorem storeBytes_spec (bs : List Byte) (a : Nat) (s : State) :
    ∃ m, storeBytes a bs s =
        (if bs = [] ∨ a + bs.length ≤ s.cfg.memSize then .done (s.setMem m)
          else .raised (.outOfBounds (max a s.cfg.memSize)) (s.setMem m)) ∧
      (∀ k, (s.setMem m).byteAt k =
        if a ≤ k ∧ k < a + bs.length ∧ k < s.cfg.memSize then bs.getD (k - a) 0 else s.byteAt k) ∧
      (Memory.wf s.cfg s.mem = true → Memory.wf s.cfg m = true) := by
  induction bs generalizing a s with
  | nil => exact ⟨s.mem, by simp [storeBytes, State.setMem], fun k => by simp [State.setMem]; omega, id⟩
  | cons b bs ih =>
    by_cases ha : a < s.cfg.memSize
    · obtain ⟨m, h1, h2, h3⟩ := ih (a + 1) (s.setMem (Memory.write s.cfg s.mem a b))
      refine ⟨m, ?_, fun k => ?_, fun hw => h3 (wf_write b hw ha)⟩
      · rw [storeBytes, memWrite_in b ha]
        simp only [h1, setMem_cfg, List.length_cons, reduceCtorEq, false_or]
        by_cases hb : bs = []
        · subst hb
          simp [show a + 1 ≤ s.cfg.memSize by omega, State.setMem]
        · have : max (a + 1) s.cfg.memSize = max a s.cfg.memSize := by omega
          simp only [hb, false_or, this, show a + 1 + bs.length = a + (bs.length + 1) by omega]
          rfl
      · have e := h2 k
        rw [byteAt_write] at e
        simp only [setMem_cfg] at e
        refine Eq.trans (show (s.setMem m).byteAt k = ((s.setMem (Memory.write s.cfg s.mem a b)).setMem m).byteAt k from rfl) ?_
        rw [e]
        simp only [List.length_cons]
        rcases Nat.lt_trichotomy k a with h | h | h
        · simp [show ¬ a ≤ k by omega, show ¬ a + 1 ≤ k by omega, show k ≠ a by omega]
        · subst h; simp [ha]
        · have : k - a = (k - (a + 1)) + 1 := by omega
          simp only [show a ≤ k by omega, show a + 1 ≤ k by omega, show k ≠ a by omega, this, true_and, if_false,
            show a + 1 + bs.length = a + (bs.length + 1) by omega, List.getD_cons_succ]
    · refine ⟨s.mem, ?_, fun k => ?_, id⟩
      · rw [storeBytes, memWrite_out b (by omega)]
        simp [show ¬ a + (bs.length + 1) ≤ s.cfg.memSize by omega, show max a s.cfg.memSize = a by omega, State.setMem]
      · rw [if_neg (by omega)]; rfl

/-- Everything `loadBytes` can do: it loads the registers whose bytes lie in MEM, and ends in a fault at the first that
does not. -/
theorem loadBytes_spec (rs : List RegIdx) (hn : rs.Nodup) (a : Nat) (s : State) :
    ∃ v, loadBytes a rs s =
        (if rs = [] ∨ a + rs.length ≤ s.cfg.memSize then .done (s.setRegs v)
          else .raised (.outOfBounds (max a s.cfg.memSize)) (s.setRegs v)) ∧
      (∀ j (h : j < rs.length), a + j < s.cfg.memSize → (s.setRegs v).getV rs[j] = s.byteAt (a + j)) ∧
      (∀ r, (∀ j (h : j < rs.length), rs[j] = r → s.cfg.memSize ≤ a + j) → (s.setRegs v).getV r = s.getV r) := by
  induction rs generalizing a s with
  | nil => exact ⟨s.v, by simp [loadBytes, State.setRegs], by simp, fun r _ => rfl⟩
  | cons r rs ih =>
    rw [List.nodup_cons] at hn
    by_cases ha : a < s.cfg.memSize
    · obtain ⟨v, h1, h2, h3⟩ := ih hn.2 (a + 1) (s.setV r (s.byteAt a))
      refine ⟨v, ?_, fun j h hj => ?_, fun q hq => ?_⟩
      · rw [loadBytes, memRead_in ha]
        simp only [h1, setV_cfg, List.length_cons, reduceCtorEq, false_or]
        by_cases hb : rs = []
        · subst hb
          simp [show a + 1 ≤ s.cfg.memSize by omega, State.setRegs, State.setV]
        · have : max (a + 1) s.cfg.memSize = max a s.cfg.memSize := by omega
          simp only [hb, false_or, this, show a + 1 + rs.length = a + (rs.length + 1) by omega]
          rfl
      · cases j with
        | zero =>
          have := h3 r (fun j hj' e => absurd (e ▸ List.getElem_mem hj') hn.1)
          rw [getV_setV_same] at this
          exact this
        | succ j =>
          have := h2 j (by simpa using h) (by simp; omega)
          rw [setV_byteAt, show a + 1 + j = a + (j + 1) by omega] at this
          exact this
      · have hr : q ≠ r := fun e => by
          have := hq 0 (by simp) (by simp [e]); omega
        have := h3 q (fun j hj e => by
          have := hq (j + 1) (by simpa using hj) (by simpa using e)
          simp only [setV_cfg]; omega)
        rw [getV_setV_ne _ _ _ hr] at this
        exact this
    · refine ⟨s.v, ?_, fun j h hj => absurd hj (by omega), fun q _ => rfl⟩
      rw [loadBytes, memRead_out (by omega)]
      simp [show ¬ a + (rs.length + 1) ≤ s.cfg.memSize by omega, show max a s.cfg.memSize = a by omega, State.setRegs]

theorem regsUpTo_length (x : RegIdx) : (regsUpTo x).length = x.val + 1 := by
  simp [regsUpTo]

theorem regsUpTo_nodup (x : RegIdx) : (regsUpTo x).Nodup :=
  (List.nodup_finRange 16).sublist (List.take_sublist _ _)

theorem regsUpTo_getElem (x : RegIdx) (j : Nat) (h : j < (regsUpTo x).length) :
    (regsUpTo x)[j] = ⟨j, by rw [regsUpTo_length] at h; omega⟩ := by
  simp [regsUpTo]

theorem mem_regsUpTo (x r : RegIdx) : r ∈ regsUpTo x ↔ r ≤ x := by
  rw [List.mem_iff_getElem]
  constructor
  · rintro ⟨j, h, e⟩
    rw [regsUpTo_getElem] at e
    rw [regsUpTo_length] at h
    subst e
    exact Fin.le_def.mpr (by simpa using Nat.lt_succ_iff.mp h)
  · intro h
    have : r.val ≤ x.val := h
    exact ⟨r.val, by rw [regsUpTo_length]; omega, by rw [regsUpTo_getElem]⟩

/-! Draws (43_display.md R197). -/

/-- How the rows of a draw end: without a fault, or at the first byte outside MEM. -/
theorem drawRows_fault (s : State) (x0 : Nat) (n a y : Nat) (c : Canvas) :
    (drawRows s x0 a y n c).2 =
      if n = 0 ∨ a + n ≤ s.cfg.memSize then none else some (.outOfBounds (max a s.cfg.memSize)) := by
  induction n generalizing a y c with
  | zero => simp [drawRows]
  | succ n ih =>
    by_cases ha : a < s.cfg.memSize
    · rw [drawRows, memRead_in ha]
      simp only [ih]
      have : max (a + 1) s.cfg.memSize = max a s.cfg.memSize := by omega
      rw [this]
      by_cases hn : n = 0
      · subst hn; simp [show a + 1 ≤ s.cfg.memSize by omega]
      · simp only [hn, false_or, show a + 1 + n = a + (n + 1) by omega, Nat.succ_ne_zero]
    · rw [drawRows, memRead_out (by omega)]
      simp [show ¬ a + (n + 1) ≤ s.cfg.memSize by omega, show max a s.cfg.memSize = a by omega]

/-- Some set bit of a row that lies in MEM lands on the cell of (x', y'). -/
def RowsCover (s : State) (x0 n a y x' y' : Nat) : Prop :=
  ∃ r k, r < n ∧ a + r < s.cfg.memSize ∧ k < 8 ∧ spriteBit (s.byteAt (a + r)) k = true ∧
    sameCell (x0 + k) (y + r) x' y' = true

theorem rowsCover_zero (s : State) (x0 a y x' y' : Nat) : ¬ RowsCover s x0 0 a y x' y' := by
  rintro ⟨r, k, h, -⟩; omega

theorem rowsCover_out {s : State} {x0 n a y x' y' : Nat} (h : s.cfg.memSize ≤ a) : ¬ RowsCover s x0 n a y x' y' := by
  rintro ⟨r, k, -, h2, -⟩; omega

theorem rowsCover_succ {s : State} {x0 n a y x' y' : Nat} (ha : a < s.cfg.memSize) :
    RowsCover s x0 (n + 1) a y x' y' ↔
      RowCovers x0 y (s.byteAt a) x' y' ∨ RowsCover s x0 n (a + 1) (y + 1) x' y' := by
  refine ⟨?_, ?_⟩
  · rintro ⟨r, k, h1, h2, h3, h4, h5⟩
    cases r with
    | zero => exact .inl ⟨k, h3, by simpa using h4, by simpa using h5⟩
    | succ r =>
      exact .inr ⟨r, k, by omega, by omega, h3, by rwa [show a + 1 + r = a + (r + 1) by omega],
        by rwa [show y + 1 + r = y + (r + 1) by omega]⟩
  · rintro (⟨k, h3, h4, h5⟩ | ⟨r, k, h1, h2, h3, h4, h5⟩)
    · exact ⟨0, k, by omega, by omega, h3, by simpa using h4, by simpa using h5⟩
    · exact ⟨r + 1, k, by omega, by omega, h3, by rwa [show a + (r + 1) = a + 1 + r by omega],
        by rwa [show y + (r + 1) = y + 1 + r by omega]⟩

/-- Rows of one draw do not meet. -/
theorem rowCovers_not_rowsCover {s : State} {x0 n a y x' y' : Nat} {b : Byte} (hn : n < 32)
    (h : RowCovers x0 y b x' y') : ¬ RowsCover s x0 n (a + 1) (y + 1) x' y' := by
  obtain ⟨k0, -, -, hk⟩ := h
  rintro ⟨r, k, h1, -, -, -, h5⟩
  simp only [sameCell, decide_eq_true_eq] at h5 hk
  omega

/-- The rows of a draw, as the pixels see them: every set bit of a row that lies in MEM inverts its cell once, and every
other cell is left alone. -/
theorem drawRows_read (s : State) (x0 n a y : Nat) (hn : n ≤ 32) (c : Canvas) (x' y' : Nat) :
    (RowsCover s x0 n a y x' y' → fbRead (drawRows s x0 a y n c).1.fb x' y' = !fbRead c.fb x' y') ∧
    (¬ RowsCover s x0 n a y x' y' → fbRead (drawRows s x0 a y n c).1.fb x' y' = fbRead c.fb x' y') := by
  induction n generalizing a y c with
  | zero => exact ⟨fun h => absurd h (rowsCover_zero s x0 a y x' y'), fun _ => rfl⟩
  | succ n ih =>
    by_cases ha : a < s.cfg.memSize
    · have ih := ih (a + 1) (y + 1) (by omega) (drawRow x0 y (s.byteAt a) c)
      rw [drawRows, memRead_in ha, rowsCover_succ ha]
      by_cases h0 : RowCovers x0 y (s.byteAt a) x' y'
      · refine ⟨fun _ => ?_, fun h => absurd (.inl h0) h⟩
        exact (ih.2 (rowCovers_not_rowsCover (by omega) h0)).trans (drawRow_read_covered c h0)
      · rw [drawRow_read_other c h0] at ih
        exact ⟨fun h => ih.1 (h.resolve_left h0), fun h => ih.2 (fun h' => h (.inr h'))⟩
    · rw [drawRows, memRead_out (by omega)]
      exact ⟨fun h => absurd h (rowsCover_out (by omega)), fun _ => rfl⟩

/-- The rows of a draw, as the collision sees them: against the framebuffer before the draw (R198 (8)). -/
theorem drawRows_hit (s : State) (x0 n a y : Nat) (hn : n ≤ 32) (c : Canvas) :
    (drawRows s x0 a y n c).1.hit = true ↔ c.hit = true ∨
      ∃ r k, r < n ∧ a + r < s.cfg.memSize ∧ k < 8 ∧ spriteBit (s.byteAt (a + r)) k = true ∧
        fbRead c.fb (x0 + k) (y + r) = true := by
  induction n generalizing a y c with
  | zero => simp [drawRows]
  | succ n ih =>
    by_cases ha : a < s.cfg.memSize
    · have other : ∀ r k, r < n →
          fbRead (drawRow x0 y (s.byteAt a) c).fb (x0 + k) (y + 1 + r) = fbRead c.fb (x0 + k) (y + 1 + r) := by
        intro r k h1
        refine drawRow_read_other c ?_
        rintro ⟨k', -, -, h⟩
        simp only [sameCell, decide_eq_true_eq] at h
        omega
      rw [drawRows, memRead_in ha]
      simp only []
      rw [ih _ _ (by omega), drawRow_hit]
      refine ⟨?_, ?_⟩
      · rintro ((h | ⟨k, h1, h2, h3⟩) | ⟨r, k, h1, h2, h3, h4, h5⟩)
        · exact .inl h
        · exact .inr ⟨0, k, by omega, by omega, h1, by simpa using h2, by simpa using h3⟩
        · rw [other r k h1] at h5
          exact .inr ⟨r + 1, k, by omega, by omega, h3, by rwa [show a + (r + 1) = a + 1 + r by omega],
            by rwa [show y + (r + 1) = y + 1 + r by omega]⟩
      · rintro (h | ⟨r, k, h1, h2, h3, h4, h5⟩)
        · exact .inl (.inl h)
        · cases r with
          | zero => exact .inl (.inr ⟨k, h3, by simpa using h4, by simpa using h5⟩)
          | succ r =>
            exact .inr ⟨r, k, by omega, by omega, h3, by rwa [show a + 1 + r = a + (r + 1) by omega],
              by rw [other r k (by omega)]; rwa [show y + 1 + r = y + (r + 1) by omega]⟩
    · rw [drawRows, memRead_out (by omega)]
      refine ⟨.inl, ?_⟩
      rintro (h | ⟨r, k, -, h2, -⟩)
      · exact h
      · omega

/-! Fetch (20_memory.md R64). -/

/-- The word at PC. -/
def fetchWord (s : State) : Word := wordOfBytes (s.byteAt s.pc.toNat) (s.byteAt (s.pc.toNat + 1))

/-- Everything a fetch can do. -/
theorem fetch_spec (s : State) : fetch s =
    if s.pc.toNat + 1 < s.cfg.memSize then .ok (fetchWord s, s.setPc (s.pc + 2))
    else .error (.outOfBounds (max s.pc.toNat s.cfg.memSize)) := by
  unfold fetch
  by_cases h : s.pc.toNat < s.cfg.memSize
  · rw [memRead_in h]
    by_cases h1 : s.pc.toNat + 1 < s.cfg.memSize
    · rw [memRead_in h1, if_pos h1]; rfl
    · rw [memRead_out (by omega), if_neg h1, show max s.pc.toNat s.cfg.memSize = s.pc.toNat + 1 by omega]
  · rw [memRead_out (by omega), if_neg (by omega), show max s.pc.toNat s.cfg.memSize = s.pc.toNat by omega]

/-! Ticks (45_timers.md R222). -/

theorem byte_pred (b : Byte) (h : b ≠ 0) : (b - 1).toNat = b.toNat - 1 := by
  have h1 := b.isLt
  have h2 : b.toNat ≠ 0 := fun e => h (BitVec.eq_of_toNat_eq (by simpa using e))
  rw [BitVec.toNat_sub]
  simp
  omega

@[simp] theorem delayTick_st (s : State) : (delayTick s).st = s.st := by unfold delayTick; split <;> simp

@[simp] theorem soundTick_dt (s : State) : (soundTick s).dt = s.dt := by unfold soundTick; split <;> simp

theorem delayTick_dt (s : State) : (delayTick s).dt.toNat = s.dt.toNat - 1 := by
  unfold delayTick
  split
  · exact byte_pred _ ‹_›
  · rename_i h
    simp only [ne_eq, not_not] at h
    simp [h]

theorem soundTick_st (s : State) : (soundTick s).st.toNat = s.st.toNat - 1 := by
  unfold soundTick
  split
  · exact byte_pred _ ‹_›
  · rename_i h
    simp only [ne_eq, not_not] at h
    simp [h]

theorem tick_dt (s : State) : (tick s).dt.toNat = s.dt.toNat - 1 := by simp [tick, delayTick_dt]

theorem tick_st (s : State) : (tick s).st.toNat = s.st.toNat - 1 := by simp [tick, soundTick_st]

theorem delayTick_events (s : State) : (delayTick s).events =
    s.events ++ if s.dt = 0 ∧ s.cfg.delayCbBound = true then [.delayZero] else [] := by
  unfold delayTick
  by_cases h : s.dt = 0 <;> by_cases hd : s.cfg.delayCbBound <;> simp only [h, hd, ne_eq, not_true_eq_false,
    not_false_eq_true, if_true, if_false, emit_events, eventBound, setDt_events, and_true, and_false,
    List.append_nil, Bool.false_eq_true]

theorem soundTick_events (s : State) : (soundTick s).events =
    s.events ++ if s.st = 0 ∧ s.cfg.soundCbBound = true then [.toneOff] else [] := by
  unfold soundTick
  by_cases h : s.st = 0 <;> by_cases hd : s.cfg.soundCbBound <;> simp only [h, hd, ne_eq, not_true_eq_false,
    not_false_eq_true, if_true, if_false, emit_events, eventBound, setSt_events, and_true, and_false,
    List.append_nil, Bool.false_eq_true]

@[simp] theorem delayTick_cfg (s : State) : (delayTick s).cfg = s.cfg := by unfold delayTick; split <;> simp

/-- What a tick emits: delay first, then sound. -/
theorem tick_events (s : State) : (tick s).events = s.events ++
    ((if s.dt = 0 ∧ s.cfg.delayCbBound = true then [.delayZero] else []) ++
      (if s.st = 0 ∧ s.cfg.soundCbBound = true then [.toneOff] else [])) := by
  rw [tick, soundTick_events, delayTick_events, delayTick_st, delayTick_cfg, List.append_assoc]

end Sys2Proof.Machine
end

