-- ==== Sys2Proof/Laws/Exec.lean ====
section
/-! SUPPORT. Laws/Exec.lean: what a whole draw, tick, instruction or step can do, said once. -/

namespace Sys2Proof.Machine

/-! Values. -/

theorem zextAddr_toNat (n : BitVec 12) : (zextAddr n).toNat = n.toNat := by
  have := n.isLt
  simp [zextAddr, BitVec.toNat_setWidth]; omega

/-- The three digits of `FX33` (42_index_memory.md R176). -/
theorem decimalDigits_spec (b : Byte) : ∃ h t u, decimalDigits b = [h, t, u] ∧ h.toNat = b.toNat / 100 ∧
    t.toNat = b.toNat / 10 % 10 ∧ u.toNat = b.toNat % 10 := by
  have := b.isLt
  refine ⟨_, _, _, rfl, ?_, ?_, ?_⟩ <;> simp <;> omega

/-- When the key test is true (44_keypad.md R211). -/
theorem keyMatches_iff (key : Option Key) (b : Byte) :
    keyMatches key b = true ↔ ∃ k : Key, key = some k ∧ k.val = b.toNat := by
  cases key <;> simp [keyMatches, eq_comm]

/-! A draw (43_display.md R197). -/

theorem rowsCover_iff (s : State) (x0 y0 n x y : Nat) :
    RowsCover s x0 n s.i.toNat y0 x y ↔ SpriteCovers s x0 y0 (min n (s.cfg.memSize - s.i.toNat)) x y := by
  have : SpriteCovers s x0 y0 (min n (s.cfg.memSize - s.i.toNat)) x y ↔
      ∃ r k, r < min n (s.cfg.memSize - s.i.toNat) ∧ k < 8 ∧ spriteBit (s.byteAt (s.i.toNat + r)) k = true ∧
        sameCell (x0 + k) (y0 + r) x y = true := by
    simp [SpriteCovers, SpriteBitSet, spriteBit, sameCell]
  rw [this]
  refine ⟨?_, ?_⟩
  · rintro ⟨r, k, h1, h2, h3⟩
    exact ⟨r, k, by omega, h3⟩
  · rintro ⟨r, k, h1, h3⟩
    exact ⟨r, k, by omega, by omega, h3⟩

/-- Everything `DXYN` can do: the rows that lie in MEM invert the pixels they cover; then it completes with VF, or it
raises the fault of the first row that does not. -/
theorem execDrw_spec (x y : RegIdx) (n : Fin 16) (s : State) : ∃ (fb : Framebuffer) (hit : Bool),
    (∀ a b, SpriteCovers s (s.getV x).toNat (s.getV y).toNat (min n.val (s.cfg.memSize - s.i.toNat)) a b →
      fbRead fb a b = !fbRead s.fb a b) ∧
    (∀ a b, ¬ SpriteCovers s (s.getV x).toNat (s.getV y).toNat (min n.val (s.cfg.memSize - s.i.toNat)) a b →
      fbRead fb a b = fbRead s.fb a b) ∧
    (hit = true ↔ SpriteCollides s (s.getV x).toNat (s.getV y).toNat (min n.val (s.cfg.memSize - s.i.toNat))) ∧
    execDrw x y n s = if n.val = 0 ∨ s.i.toNat + n.val ≤ s.cfg.memSize
      then complete ((s.setFb fb).setV vfIdx (flagByte hit))
      else raise (.outOfBounds (max s.i.toNat s.cfg.memSize)) (s.setFb fb) := by
  have hf := drawRows_fault s (s.getV x).toNat n.val s.i.toNat (s.getV y).toNat ⟨s.fb, false⟩
  have hr := fun a b =>
    drawRows_read s (s.getV x).toNat n.val s.i.toNat (s.getV y).toNat (by omega) ⟨s.fb, false⟩ a b
  have hh := drawRows_hit s (s.getV x).toNat n.val s.i.toNat (s.getV y).toNat (by omega) ⟨s.fb, false⟩
  rw [execDrw]
  generalize drawRows s (s.getV x).toNat s.i.toNat (s.getV y).toNat n.val ⟨s.fb, false⟩ = p at *
  obtain ⟨c, o⟩ := p
  refine ⟨c.fb, c.hit, fun a b h => (hr a b).1 ((rowsCover_iff ..).2 h),
    fun a b h => (hr a b).2 (fun h' => h ((rowsCover_iff ..).1 h')), ?_, ?_⟩
  · rw [hh]
    simp only [Bool.false_eq_true, false_or]
    refine ⟨?_, ?_⟩
    · rintro ⟨r, k, h1, h2, h3, h4, h5⟩
      exact ⟨r, k, by omega, h3, h4, h5⟩
    · rintro ⟨r, k, h1, h3, h4, h5⟩
      exact ⟨r, k, by omega, by omega, h3, h4, h5⟩
  · simp only at hf
    subst hf
    by_cases hc : n.val = 0 ∨ s.i.toNat + n.val ≤ s.cfg.memSize <;> simp only [hc, if_true, if_false]

/-! A tick (45_timers.md R222). -/

/-- A tick touches the timers and the events only. -/
theorem tick_keeps (s : State) : KeepsAllBut [.dt, .st, .events] s (tick s) := by
  intro p hp
  unfold tick soundTick delayTick
  cases p <;> (try (simp at hp; done)) <;> simp only [Part.same] <;> split <;> split <;> simp

@[simp] theorem tick_mem (s : State) : (tick s).mem = s.mem := by
  unfold tick soundTick delayTick
  split <;> split <;> simp

/-! An instruction (40_control_flow.md R120). -/

/-- What the parts of `u` that no instruction may write are, beside its own effect. -/
structure SameHost (s u : State) : Prop where
  cycles : u.cycles = s.cycles
  run : u.run = s.run
  cfg : u.cfg = s.cfg
  key : u.key = s.key
  pause : u.pause = s.pause
  stop : u.stop = s.stop
  agenda : u.agenda = s.agenda
  schedule : u.schedule = s.schedule
  started : u.started = s.started
  memWf : Memory.wf s.cfg s.mem = true → Memory.wf s.cfg u.mem = true

/-- How any instruction ends: it completes, it raises a fault, or it opens the key wait. -/
theorem exec_next_cases (i : Instr) (s t : State) (h : exec i s = .next t) :
    (∃ u : State, t = u.setCycles (min (s.cycles + 1) s.cfg.cycleMax) ∧ SameHost s u ∧
      (u.events = s.events ∨ u.events = s.events ++ [.toneOn]) ∧
      (∀ d, s.cfg.stackDepth = some d → s.stack.length ≤ d → u.stack.length ≤ d)) ∨
    (∃ (f : CpuFault) (u : State), t = enterFault f u ∧ SameHost s u ∧ u.events = s.events ∧ u.stack = s.stack) ∨
    (∃ x, i = .ldVxK x ∧ t = (s.setRun .waitKey).setWait x) := by
  cases i <;> simp only [exec] at h
  case ldVxK x => injection h with h; exact .inr (.inr ⟨x, rfl, h.symm⟩)
  case sys n => injection h with h; subst h; exact .inr (.inl ⟨_, s, rfl, by constructor <;> simp, by simp⟩)
  case ret =>
    unfold execRet at h
    cases hs : s.stack with
    | nil =>
      rw [pop_nil hs] at h; injection h with h; subst h
      exact .inr (.inl ⟨_, s, rfl, by constructor <;> simp, by simp [hs]⟩)
    | cons a r =>
      rw [pop_cons hs] at h; injection h with h; subst h
      exact .inl ⟨_, rfl, by constructor <;> simp, by simp, by simp; intro d _ _; omega⟩
  case call n =>
    unfold execCall at h
    cases hs : s.stackFull with
    | true =>
      rw [push_full _ hs] at h; injection h with h; subst h
      exact .inr (.inl ⟨_, s, rfl, by constructor <;> simp, by simp⟩)
    | false =>
      rw [push_room _ hs] at h; injection h with h; subst h
      refine .inl ⟨_, rfl, by constructor <;> simp, by simp, fun d hd hl => ?_⟩
      rw [← Bool.not_eq_true, stackFull_iff] at hs
      have : ¬ d ≤ s.stack.length := fun c => hs ⟨d, hd, c⟩
      simp; omega
  case drw x y n =>
    obtain ⟨fb, hit, -, -, -, h4⟩ := execDrw_spec x y n s
    rw [h4] at h
    split at h <;> injection h with h <;> subst h
    · exact .inl ⟨_, rfl, by constructor <;> simp, by simp, by simp⟩
    · exact .inr (.inl ⟨_, _, rfl, by constructor <;> simp, by simp⟩)
  case ldBVx x =>
    obtain ⟨m, h1, -, h3⟩ := storeBytes_spec (decimalDigits (s.getV x)) s.i.toNat s
    unfold execLdBVx at h
    rw [h1] at h
    split at h <;> injection h with h <;> subst h
    · exact .inl ⟨_, rfl, by constructor <;> simp; exact h3, by simp, by simp⟩
    · exact .inr (.inl ⟨_, _, rfl, by constructor <;> simp; exact h3, by simp⟩)
  case storeRegs x =>
    obtain ⟨m, h1, -, h3⟩ := storeBytes_spec ((regsUpTo x).map s.getV) s.i.toNat s
    unfold execStoreRegs at h
    rw [h1] at h
    split at h <;> injection h with h <;> subst h
    · exact .inl ⟨_, rfl, by constructor <;> simp; exact h3, by simp, by simp⟩
    · exact .inr (.inl ⟨_, _, rfl, by constructor <;> simp; exact h3, by simp⟩)
  case loadRegs x =>
    obtain ⟨m, h1, -, -⟩ := loadBytes_spec (regsUpTo x) (regsUpTo_nodup x) s.i.toNat s
    unfold execLoadRegs at h
    rw [h1] at h
    split at h <;> injection h with h <;> subst h
    · exact .inl ⟨_, rfl, by constructor <;> simp, by simp, by simp⟩
    · exact .inr (.inl ⟨_, _, rfl, by constructor <;> simp, by simp⟩)
  case ldSTVx x =>
    injection h with h; subst h
    refine .inl ⟨_, by simp [setSound]; rfl, by constructor <;> simp, ?_, by simp⟩
    cases hb : eventBound s.cfg .toneOn <;> simp [emit_events, hb]
  case rnd => injection h with h; subst h; exact .inl ⟨_, rfl, by constructor <;> simp [rand8], by simp [rand8], by simp [rand8]⟩
  case ldDTVx =>
    injection h with h; subst h
    exact .inl ⟨_, rfl, by constructor <;> simp [setDelay], by simp [setDelay], by simp [setDelay]⟩
  all_goals
    injection h with h
    subst h
    first
      | exact .inl ⟨_, rfl, by constructor <;> simp, by simp, by simp⟩
      | (simp only [skipIf_cycles, skipIf_cfg]; exact .inl ⟨_, rfl, by constructor <;> simp, by simp, by simp⟩)

/-! A step of the machine (60_exceptions.md R260, R261). -/

/-- The turn that is due is the one `nextTurn` finds. -/
theorem nextTurn_eq_some {s u : State} {turn : Turn} : nextTurn s = some (turn, u) ↔ TurnDue s turn u := by
  unfold nextTurn TurnDue
  split <;> simp_all [eq_comm]

theorem nextTurn_eq_none {s : State} : nextTurn s = none ↔ CpuAlone s := by
  unfold nextTurn CpuAlone
  split <;> simp_all

theorem step_of_turnDue {s u : State} {turn : Turn} (h : TurnDue s turn u) : step s = takeTurn turn u := by
  rw [step, nextTurn_eq_some.2 h]

theorem step_of_cpuAlone {s : State} (h : CpuAlone s) : step s = cpuStep s := by
  rw [step, nextTurn_eq_none.2 h]

/-- Taking a turn off the agenda or the schedule changes nothing else. -/
theorem TurnDue.keeps {s u : State} {turn : Turn} (h : TurnDue s turn u) :
    ∃ agenda schedule, u = (s.setAgenda agenda).setSchedule schedule := by
  rcases h with ⟨r, -, rfl⟩ | ⟨-, r, -, rfl⟩ | ⟨-, n, -, -, rfl⟩
  · exact ⟨r, s.schedule, rfl⟩
  · exact ⟨r, s.schedule, rfl⟩
  · exact ⟨s.agenda, .free (n + 1), rfl⟩

/-- At the CPU's turn the machine takes the CPU's step, if it has one. -/
theorem step_of_cpuTurn {s u : State} (h : CpuTurn s u) (hm : ∀ why, cpuMove u ≠ .idle why) :
    step s = cpuStep u := by
  rcases h with ⟨ha, rfl⟩ | h
  · exact step_of_cpuAlone ha
  · simp only [step_of_turnDue h, takeTurn, cpuTurn]

theorem step_of_cpuMayRun {s u : State} (h : CpuMayRun s u) : step s = instructionStep u := by
  obtain ⟨hc, hr, hp, hs⟩ := h
  have hm : cpuMove u = .instruction := by simp [cpuMove, hr, hp, hs]
  rw [step_of_cpuTurn hc (by simp [hm]), cpuStep, hm]

/-- A waiting, unpaused, unstopped CPU takes the poll step (44_keypad.md R214). -/
theorem step_of_poll {s u : State} (h : CpuTurn s u) (hr : u.run = .waitKey) (hp : u.pause = false)
    (hs : u.stop = false) : step s = pollStep u := by
  have hm : cpuMove u = .poll := by simp [cpuMove, hr, hp, hs]
  rw [step_of_cpuTurn h (by simp [hm]), cpuStep, hm]

/-- With `stop` asserted the CPU's step is the transition to STOPPED (60_exceptions.md R252). -/
theorem step_of_stop {s u : State} (h : CpuTurn s u) (hs : u.stop = true)
    (hr : u.run = .running ∨ u.run = .waitKey) : step s = .next (u.setRun .stopped) := by
  have hm : cpuMove u = .stopNow := by rcases hr with hr | hr <;> simp [cpuMove, hr, hs]
  rw [step_of_cpuTurn h (by simp [hm]), cpuStep, hm]

/-- Whose step it was: the CPU's (or a CPU turn that found none), a tick, or an operation of the host. -/
theorem step_next_cases (s t : State) (h : step s = .next t) :
    (∃ u, CpuTurn s u ∧ (t = u ∨ cpuStep u = .next t)) ∨
    (∃ u, TurnDue s .tick u ∧ t = tick u) ∨
    (∃ op u, TurnDue s (.host op) u ∧ hostStep op u = .next t) := by
  unfold step at h
  split at h
  · exact .inl ⟨s, .inl ⟨nextTurn_eq_none.1 ‹_›, rfl⟩, .inr h⟩
  · rename_i turn u hd
    rw [nextTurn_eq_some] at hd
    cases turn with
    | cpu =>
      refine .inl ⟨u, .inr hd, ?_⟩
      simp only [takeTurn, cpuTurn] at h
      split at h
      · injection h with h; exact .inl h.symm
      · exact .inr h
    | tick => simp only [takeTurn] at h; injection h with h; exact .inr (.inl ⟨u, hd, h.symm⟩)
    | host op => exact .inr (.inr ⟨op, u, hd, h⟩)

/-! Schedules (60_exceptions.md R262). -/

/-- No instruction writes the agenda or the schedule. -/
theorem exec_keeps_turns {i : Instr} {s t : State} (h : exec i s = .next t) :
    t.agenda = s.agenda ∧ t.schedule = s.schedule := by
  rcases exec_next_cases i s t h with ⟨u, rfl, hu, -⟩ | ⟨f, u, rfl, hu, -⟩ | ⟨x, -, rfl⟩
  · exact ⟨hu.agenda, hu.schedule⟩
  · simp [hu.agenda, hu.schedule]
  · exact ⟨rfl, rfl⟩

theorem cpuStep_keeps_turns {s t : State} (h : cpuStep s = .next t) :
    t.agenda = s.agenda ∧ t.schedule = s.schedule := by
  unfold cpuStep at h
  split at h
  · unfold instructionStep at h
    rw [fetch_spec] at h
    split at h
    · injection h with h; subst h; simp
    · rename_i hf
      split at hf <;> cases hf
      split at h
      · injection h with h; subst h; simp
      · simpa using exec_keeps_turns h
  · unfold pollStep at h
    split at h <;> injection h with h <;> subst h <;> exact ⟨rfl, rfl⟩
  · injection h with h; subst h; exact ⟨rfl, rfl⟩
  · cases h

/-- No turn writes the agenda or the schedule: they only run down. -/
theorem takeTurn_keeps_turns {turn : Turn} {u t : State} (h : takeTurn turn u = .next t) :
    t.agenda = u.agenda ∧ t.schedule = u.schedule := by
  cases turn with
  | cpu =>
    simp only [takeTurn, cpuTurn] at h
    split at h
    · injection h with h; subst h; exact ⟨rfl, rfl⟩
    · exact cpuStep_keeps_turns h
  | tick =>
    simp only [takeTurn] at h
    injection h with h
    subst h
    exact ⟨tick_keeps u .agenda (by decide), tick_keeps u .schedule (by decide)⟩
  | host op =>
    cases op <;> simp only [takeTurn, hostStep] at h
    case reset | load => split at h <;> cases h; exact ⟨rfl, rfl⟩
    all_goals injection h with h; subst h; exact ⟨rfl, rfl⟩

/-- Some run from `s` reaches a state where the turn is due, or where the machine stops (a host turn that breaks a duty of
60_exceptions.md R263). -/
def Reaches (turn : Turn) (s : State) : Prop :=
  ∃ t, Steps s t ∧ ((∃ u, TurnDue t turn u) ∨ ∀ v, step t ≠ .next v)

theorem Reaches.of_step {turn : Turn} {s t : State} (h : step s = .next t) (ht : Reaches turn t) :
    Reaches turn s := by
  obtain ⟨v, hv, hd⟩ := ht
  refine ⟨v, ?_, hd⟩
  clear hd
  induction hv with
  | refl => exact .tail (.refl _) h
  | tail _ h2 ih => exact .tail ih h2

/-- One turn further: if the state after the turn that is due reaches it, so does the state before. -/
theorem reaches_of_turnDue {turn d : Turn} {s u : State} (h : TurnDue s d u)
    (ht : ∀ t, t.agenda = u.agenda → t.schedule = u.schedule → Reaches turn t) : Reaches turn s := by
  cases hs : step s with
  | next t =>
    obtain ⟨h1, h2⟩ := takeTurn_keeps_turns ((step_of_turnDue h).symm.trans hs)
    exact .of_step hs (ht t h1 h2)
  | fault f => exact ⟨s, .refl s, .inr fun v => by simp [hs]⟩
  | refused r => exact ⟨s, .refl s, .inr fun v => by simp [hs]⟩

/-- The agenda is worked off, and then the schedule goes on. -/
theorem reaches_of_agenda {turn : Turn} {sched : Schedule}
    (hs : ∀ t, t.agenda = [] → t.schedule = sched → Reaches turn t) (agenda : List Turn) :
    ∀ s : State, s.agenda = agenda → s.schedule = sched → Reaches turn s := by
  induction agenda with
  | nil => exact hs
  | cons d rest ih =>
    intro s ha hc
    exact reaches_of_turnDue (.inl ⟨rest, ha, rfl⟩) fun t h1 h2 => ih t h1 (h2.trans hc)

theorem reaches_of_mem {turn : Turn} (agenda : List Turn) :
    ∀ s : State, s.agenda = agenda → turn ∈ agenda → Reaches turn s := by
  induction agenda with
  | nil => simp
  | cons d rest ih =>
    intro s ha hm
    by_cases hd : turn = d
    · exact ⟨s, .refl s, .inl ⟨_, .inl ⟨rest, hd ▸ ha, rfl⟩⟩⟩
    · exact reaches_of_turnDue (.inl ⟨rest, ha, rfl⟩) fun t h1 _ => ih t h1 (by simpa [hd] using hm)

/-- From a free schedule the turn with number `n + d` comes after at most `d` others. -/
theorem reaches_of_free {turn : Turn} (d : Nat) : ∀ (n : Nat) (s : State), s.agenda = [] → s.schedule = .free n →
    Config.freeTurn (n + d) = turn → Reaches turn s := by
  induction d with
  | zero => exact fun n s ha hs hd => ⟨s, .refl s, .inl ⟨_, .inr (.inr ⟨ha, n, hs, hd.symm, rfl⟩)⟩⟩
  | succ d ih =>
    intro n s ha hs hd
    exact reaches_of_turnDue (.inr (.inr ⟨ha, n, hs, rfl, rfl⟩)) fun t h1 h2 =>
      ih (n + 1) t (h1.trans ha) h2 (by rwa [Nat.add_right_comm, Nat.add_assoc])

/-- A turn that recurs comes, whatever else comes before it, unless the machine stops: with `CpuFair` the CPU gets its
turn, with `TimerFair` the ticks keep coming. -/
theorem reaches_of_recurs {turn : Turn} {s : State} (h : Recurs turn s) : Reaches turn s := by
  unfold Recurs at h
  refine reaches_of_agenda (fun t ha hs => ?_) s.agenda s rfl rfl
  split at h
  · rename_i turns hc
    rw [hc] at hs
    cases turns with
    | nil => simp at h
    | cons d rest =>
      by_cases hd : turn = d
      · exact ⟨t, .refl t, .inl ⟨_, .inr (.inl ⟨ha, rest, hd ▸ hs, rfl⟩)⟩⟩
      · exact reaches_of_turnDue (.inr (.inl ⟨ha, rest, hs, rfl⟩)) fun v h1 _ =>
          reaches_of_mem rest v h1 (by simpa [hd] using h)
  · rename_i n hc
    obtain ⟨k, hk, hf⟩ := h n (Nat.le_refl n)
    exact reaches_of_free (k - n) n t ha (hs.trans hc) (by rwa [Nat.add_sub_cancel' hk])

end Sys2Proof.Machine
end

