-- ==== Sys2Proof/Laws/PerInstr.lean ====
section
/-! SUPPORT. Laws/PerInstr.lean: for every instruction, its word has the fixed bits of its row in 30_encoding.md R95. -/

/-- The word of the instruction, under the mask of its row, is the match value of its row. -/
def Sys2Proof.Laws.EncodeMatchesRow.Statement (i : Sys2Proof.Instr) : Prop :=
  Sys2Proof.encode i &&& (Sys2Proof.rowOf i).1 = (Sys2Proof.rowOf i).2

namespace Sys2Proof

/-- Format A: the mask 0xF000 leaves the top nibble. -/
theorem and_mask_a (a : BitVec 4) (n : BitVec 12) : (a ++ n : Word) &&& 0xF000 = a ++ 0#12 := by
  apply BitVec.eq_of_getLsbD_eq
  intro k hk
  rw [BitVec.getLsbD_and, getLsbD_a, getLsbD_a]
  interval_cases k <;> simp

/-- Format RI: the mask 0xF000 leaves the top nibble. -/
theorem and_mask_ri (a x : BitVec 4) (n : BitVec 8) : (a ++ x ++ n : Word) &&& 0xF000 = a ++ 0#4 ++ 0#8 := by
  apply BitVec.eq_of_getLsbD_eq
  intro k hk
  rw [BitVec.getLsbD_and, getLsbD_ri, getLsbD_ri]
  interval_cases k <;> simp

/-- Format RF: the mask 0xF0FF leaves the top nibble and the low byte. -/
theorem and_mask_rf (a x : BitVec 4) (n : BitVec 8) : (a ++ x ++ n : Word) &&& 0xF0FF = a ++ 0#4 ++ n := by
  apply BitVec.eq_of_getLsbD_eq
  intro k hk
  rw [BitVec.getLsbD_and, getLsbD_ri, getLsbD_ri]
  interval_cases k <;> simp

/-- Format RR: the mask 0xF00F leaves the top and the low nibble. -/
theorem and_mask_rr (a x y n : BitVec 4) : (a ++ x ++ y ++ n : Word) &&& 0xF00F = a ++ 0#4 ++ 0#4 ++ n := by
  apply BitVec.eq_of_getLsbD_eq
  intro k hk
  rw [BitVec.getLsbD_and, getLsbD_rr, getLsbD_rr]
  interval_cases k <;> simp

/-- Format RRN: the mask 0xF000 leaves the top nibble. -/
theorem and_mask_rrn (a x y n : BitVec 4) : (a ++ x ++ y ++ n : Word) &&& 0xF000 = a ++ 0#4 ++ 0#4 ++ 0#4 := by
  apply BitVec.eq_of_getLsbD_eq
  intro k hk
  rw [BitVec.getLsbD_and, getLsbD_rr, getLsbD_rr]
  interval_cases k <;> simp

end Sys2Proof

namespace Sys2Proof.Laws.EncodeMatchesRow

theorem sys (nnn : BitVec 12) : Statement (.sys nnn) := (and_mask_a _ _).trans rfl
theorem cls : Statement .cls := rfl
theorem ret : Statement .ret := rfl
theorem jp (nnn : BitVec 12) : Statement (.jp nnn) := (and_mask_a _ _).trans rfl
theorem call (nnn : BitVec 12) : Statement (.call nnn) := (and_mask_a _ _).trans rfl
theorem seImm (x : RegIdx) (nn : Byte) : Statement (.seImm x nn) := (and_mask_ri _ _ _).trans rfl
theorem sneImm (x : RegIdx) (nn : Byte) : Statement (.sneImm x nn) := (and_mask_ri _ _ _).trans rfl
theorem seReg (x y : RegIdx) : Statement (.seReg x y) := (and_mask_rr _ _ _ _).trans rfl
theorem ldImm (x : RegIdx) (nn : Byte) : Statement (.ldImm x nn) := (and_mask_ri _ _ _).trans rfl
theorem addImm (x : RegIdx) (nn : Byte) : Statement (.addImm x nn) := (and_mask_ri _ _ _).trans rfl
theorem ldReg (x y : RegIdx) : Statement (.ldReg x y) := (and_mask_rr _ _ _ _).trans rfl
theorem orReg (x y : RegIdx) : Statement (.orReg x y) := (and_mask_rr _ _ _ _).trans rfl
theorem andReg (x y : RegIdx) : Statement (.andReg x y) := (and_mask_rr _ _ _ _).trans rfl
theorem xorReg (x y : RegIdx) : Statement (.xorReg x y) := (and_mask_rr _ _ _ _).trans rfl
theorem addReg (x y : RegIdx) : Statement (.addReg x y) := (and_mask_rr _ _ _ _).trans rfl
theorem subReg (x y : RegIdx) : Statement (.subReg x y) := (and_mask_rr _ _ _ _).trans rfl
theorem shrReg (x y : RegIdx) : Statement (.shrReg x y) := (and_mask_rr _ _ _ _).trans rfl
theorem subnReg (x y : RegIdx) : Statement (.subnReg x y) := (and_mask_rr _ _ _ _).trans rfl
theorem shlReg (x y : RegIdx) : Statement (.shlReg x y) := (and_mask_rr _ _ _ _).trans rfl
theorem sneReg (x y : RegIdx) : Statement (.sneReg x y) := (and_mask_rr _ _ _ _).trans rfl
theorem ldI (nnn : BitVec 12) : Statement (.ldI nnn) := (and_mask_a _ _).trans rfl
theorem jpV0 (nnn : BitVec 12) : Statement (.jpV0 nnn) := (and_mask_a _ _).trans rfl
theorem rnd (x : RegIdx) (nn : Byte) : Statement (.rnd x nn) := (and_mask_ri _ _ _).trans rfl
theorem drw (x y : RegIdx) (n : Fin 16) : Statement (.drw x y n) := (and_mask_rrn _ _ _ _).trans rfl
theorem skp (x : RegIdx) : Statement (.skp x) := (and_mask_rf _ _ _).trans rfl
theorem sknp (x : RegIdx) : Statement (.sknp x) := (and_mask_rf _ _ _).trans rfl
theorem ldVxDT (x : RegIdx) : Statement (.ldVxDT x) := (and_mask_rf _ _ _).trans rfl
theorem ldVxK (x : RegIdx) : Statement (.ldVxK x) := (and_mask_rf _ _ _).trans rfl
theorem ldDTVx (x : RegIdx) : Statement (.ldDTVx x) := (and_mask_rf _ _ _).trans rfl
theorem ldSTVx (x : RegIdx) : Statement (.ldSTVx x) := (and_mask_rf _ _ _).trans rfl
theorem addIVx (x : RegIdx) : Statement (.addIVx x) := (and_mask_rf _ _ _).trans rfl
theorem ldFVx (x : RegIdx) : Statement (.ldFVx x) := (and_mask_rf _ _ _).trans rfl
theorem ldBVx (x : RegIdx) : Statement (.ldBVx x) := (and_mask_rf _ _ _).trans rfl
theorem storeRegs (x : RegIdx) : Statement (.storeRegs x) := (and_mask_rf _ _ _).trans rfl
theorem loadRegs (x : RegIdx) : Statement (.loadRegs x) := (and_mask_rf _ _ _).trans rfl

end Sys2Proof.Laws.EncodeMatchesRow
end

