-- ==== Sys2Proof/Tests/Slice0.lean ====
section
/-! SUPPORT. Tests/Slice0.lean: tests whose expected results come from 95_test_vectors.md (its vector is named in each
comment), and for each obligation that has hypotheses a witness that meets them, at the bounds of each clause. -/

namespace Sys2Proof.Tests

open Sys2Proof Sys2Proof.Machine

/-! ### Helpers -/

/-- The start state of the vectors: reset, with a CYCLE_MAX large enough not to saturate. -/
def base : State := { State.reset with cfg := { Config.default with cycleMax := 1000 } }

/-- The next state of an outcome that is one. -/
def nextOf (o : Outcome) : Option State :=
  match o with
  | .next t => some t
  | _ => none

/-- The state after one step. -/
def after (s : State) : Option State := nextOf (step s)

/-- One instruction step of `s` with the word `w` at PC. -/
def runs (w : Word) (s : State) : Option State := after (s.withFetchWord 16 w.toNat)

/-- One turn of another agent. -/
def turn (t : Turn) (s : State) : Option State := after (s.setAgenda [t])

/-- A byte put into memory. -/
def poke (a : Nat) (b : Byte) (s : State) : State := s.setMem (Memory.write s.cfg s.mem a b)

/-- A pixel that is set. -/
def dot (x y : Nat) (s : State) : State := s.setFb (fbWrite s.fb x y true)

/-- The pixels of a row that are set. -/
def rowOn (y : Nat) (t : State) : List Nat := (List.range 64).filter (fun x => fbRead t.fb x y)

/-! ### WellFormed -/

/-- R98: 0x00E0 and 0x00EE are not of the form 0NNN. -/
theorem test_wf_refuses_cls_as_sys : (Instr.sys 0x0E0).wf = false := by decide
theorem test_wf_refuses_ret_as_sys : (Instr.sys 0x0EE).wf = false := by decide
theorem test_wf_accepts_sys : (Instr.sys 0x0E1).wf = true := by decide

/-! ### Decoding, B1 and the encodings of 30_encoding.md R95 written out bit by bit -/

theorem test_decode_sys : decodeWord 0b0000_0000_1110_0001 = .ok (.sys 0x0E1) := by decide
theorem test_decode_cls : decodeWord 0b0000_0000_1110_0000 = .ok .cls := by decide
theorem test_decode_ret : decodeWord 0b0000_0000_1110_1110 = .ok .ret := by decide
theorem test_decode_jp : decodeWord 0b0001_1111_1111_1111 = .ok (.jp 0xFFF) := by decide
theorem test_decode_call : decodeWord 0b0010_1010_1011_1100 = .ok (.call 0xABC) := by decide
theorem test_decode_seImm : decodeWord 0b0011_1010_0111_1111 = .ok (.seImm 10 0x7F) := by decide
theorem test_decode_sneImm : decodeWord 0b0100_1010_0111_1111 = .ok (.sneImm 10 0x7F) := by decide
theorem test_decode_seReg : decodeWord 0b0101_1010_1011_0000 = .ok (.seReg 10 11) := by decide
theorem test_decode_ldImm : decodeWord 0b0110_1010_0111_1111 = .ok (.ldImm 10 0x7F) := by decide
theorem test_decode_addImm : decodeWord 0b0111_0001_0010_0000 = .ok (.addImm 1 0x20) := by decide
theorem test_decode_ldReg : decodeWord 0b1000_0001_0010_0000 = .ok (.ldReg 1 2) := by decide
theorem test_decode_orReg : decodeWord 0b1000_0001_0010_0001 = .ok (.orReg 1 2) := by decide
theorem test_decode_andReg : decodeWord 0b1000_0001_0010_0010 = .ok (.andReg 1 2) := by decide
theorem test_decode_xorReg : decodeWord 0b1000_0001_0010_0011 = .ok (.xorReg 1 2) := by decide
theorem test_decode_addReg : decodeWord 0b1000_0001_0010_0100 = .ok (.addReg 1 2) := by decide
theorem test_decode_subReg : decodeWord 0b1000_0001_0010_0101 = .ok (.subReg 1 2) := by decide
theorem test_decode_shrReg : decodeWord 0b1000_1010_1111_0110 = .ok (.shrReg 10 15) := by decide
theorem test_decode_subnReg : decodeWord 0b1000_1010_1011_0111 = .ok (.subnReg 10 11) := by decide
theorem test_decode_shlReg : decodeWord 0b1000_0001_1111_1110 = .ok (.shlReg 1 15) := by decide
theorem test_decode_sneReg : decodeWord 0b1001_1010_1011_0000 = .ok (.sneReg 10 11) := by decide
theorem test_decode_ldI : decodeWord 0b1010_0010_1111_0000 = .ok (.ldI 0x2F0) := by decide
theorem test_decode_jpV0 : decodeWord 0b1011_0011_0000_0000 = .ok (.jpV0 0x300) := by decide
theorem test_decode_rnd : decodeWord 0b1100_0001_0000_1111 = .ok (.rnd 1 0x0F) := by decide
theorem test_decode_drw : decodeWord 0b1101_0001_0010_1111 = .ok (.drw 1 2 15) := by decide
theorem test_decode_drw_no_rows : decodeWord 0xD120 = .ok (.drw 1 2 0) := by decide
theorem test_decode_skp : decodeWord 0b1110_0001_1001_1110 = .ok (.skp 1) := by decide
theorem test_decode_sknp : decodeWord 0b1110_0001_1010_0001 = .ok (.sknp 1) := by decide
theorem test_decode_ldVxDT : decodeWord 0b1111_0001_0000_0111 = .ok (.ldVxDT 1) := by decide
theorem test_decode_ldVxK : decodeWord 0b1111_0001_0000_1010 = .ok (.ldVxK 1) := by decide
theorem test_decode_ldDTVx : decodeWord 0b1111_0001_0001_0101 = .ok (.ldDTVx 1) := by decide
theorem test_decode_ldSTVx : decodeWord 0b1111_0001_0001_1000 = .ok (.ldSTVx 1) := by decide
theorem test_decode_addIVx : decodeWord 0b1111_0001_0001_1110 = .ok (.addIVx 1) := by decide
theorem test_decode_ldFVx : decodeWord 0b1111_0001_0010_1001 = .ok (.ldFVx 1) := by decide
theorem test_decode_ldBVx : decodeWord 0b1111_0001_0011_0011 = .ok (.ldBVx 1) := by decide
theorem test_decode_storeRegs : decodeWord 0b1111_1111_0101_0101 = .ok (.storeRegs 15) := by decide
theorem test_decode_loadRegs : decodeWord 0b1111_1111_0110_0101 = .ok (.loadRegs 15) := by decide

/-- B1, the rows of illegal words. -/
theorem test_illegal_words :
    [0x5AB1#16, 0x5ABF, 0x8AB8, 0x8AB9, 0x8ABA, 0x8ABB, 0x8ABC, 0x8ABD, 0x8ABF, 0x9AB1, 0xE19F, 0xE1A0, 0xE100, 0xE1FF,
      0xF100, 0xF108, 0xF11F, 0xF130, 0xF175, 0xF185, 0xF1FF].all
      (fun w => decodeWord w == .error (.illegal w)) = true := by decide

/-- Any bytes: big-endian, the rest handed back, a lone byte named. -/
theorem test_decode_bytes : decode [0x12, 0x34, 0x56] = .ok (.jp 0x234, [0x56]) := by decide
theorem test_decode_too_short : decode [0x12] = .error .tooShort := by decide

/-! ### Control transfer, B2 and A8 -/

/-- B8, third row of R122's example: `0123`. -/
theorem test_sys_faults :
    (runs 0x0123 base).map (fun t => (t.run, t.pc, t.cycles)) =
      some (.halted (.unknownOpcode 0x0123), 0x202, 0) := by decide
/-- B2: `00EE` with a stack, and A8's return. -/
theorem test_ret_pops :
    (runs 0x00EE (base.setStack [0x0ABC])).map (fun t => (t.pc, t.stack)) = some (0x0ABC, []) := by decide
theorem test_ret_underflow :
    (runs 0x00EE base).map (fun t => (t.run, t.pc, t.cycles)) = some (.halted .stackUnderflow, 0x202, 0) := by decide
/-- B2: `1200` at 0x200 is a self-loop. -/
theorem test_jp_self : (runs 0x1200 base).map (fun t => (t.pc, t.cycles)) = some (0x200, 1) := by decide
/-- B2: `1FFE`. -/
theorem test_jp_out : (runs 0x1FFE base).map (fun t => (t.pc, t.run)) = some (0x0FFE, .running) := by decide
/-- A8: PC = 0x01FF, `2123`. -/
theorem test_call_odd_pc :
    (runs 0x2123 (base.setPc 0x01FF)).map (fun t => (t.pc, t.stack)) = some (0x0123, [0x0201]) := by decide
/-- B8: a full stack of two. -/
theorem test_call_overflow :
    (runs 0x2200 { base with cfg := { base.cfg with stackDepth := some 2 }, stack := [0x400, 0x300] }).map
      (fun t => (t.run, t.pc, t.stack, t.cycles)) =
      some (.halted .stackOverflow, 0x202, [0x400, 0x300], 0) := by decide
/-- B2: `3A00`, `3AFF`, `4A00`, `4AFF` with VA = 0. -/
theorem test_seImm_skips : (runs 0x3A00 base).map State.pc = some 0x204 := by decide
theorem test_seImm_stays : (runs 0x3AFF base).map State.pc = some 0x202 := by decide
theorem test_sneImm_stays : (runs 0x4A00 base).map State.pc = some 0x202 := by decide
theorem test_sneImm_skips : (runs 0x4AFF base).map State.pc = some 0x204 := by decide
/-- B2: `5120` and `5110`; R128. -/
theorem test_seReg_skips :
    (runs 0x5120 ((base.setV 1 0x80).setV 2 0x80)).map State.pc = some 0x204 := by decide
theorem test_seReg_same : (runs 0x5110 (base.setV 1 0x33)).map State.pc = some 0x204 := by decide
/-- B2: `9120` and `9110`. -/
theorem test_sneReg_skips : (runs 0x9120 (base.setV 2 0xFF)).map State.pc = some 0x204 := by decide
theorem test_sneReg_same : (runs 0x9110 (base.setV 1 0x33)).map State.pc = some 0x202 := by decide
/-- B2: `B300`, `BFFF`. -/
theorem test_jpV0_adds : (runs 0xB300 (base.setV 0 0x10)).map State.pc = some 0x310 := by decide
theorem test_jpV0_past_12_bits :
    (runs 0xBFFF (base.setV 0 0xFF)).map (fun t => (t.pc, t.run)) = some (0x10FE, .running) := by decide

/-! ### ALU, B3 -/

/-- The registers the vectors of B3 name, with PC and CYCLES. -/
def alu (o : Option State) : Option (Byte × Byte × Byte × Word × Nat) :=
  o.map (fun t => (t.getV 1, t.getV 2, t.getV 15, t.pc, t.cycles))

/-- A start state of B3. -/
def v12F (a b f : Byte) : State := ((base.setV 1 a).setV 2 b).setV 15 f

theorem test_ldImm : alu (runs 0x61AB base) = some (0xAB, 0, 0, 0x202, 1) := by decide
theorem test_ldImm_flag_register : alu (runs 0x6F07 base) = some (0, 0, 7, 0x202, 1) := by decide
theorem test_addImm_wraps : alu (runs 0x7101 (v12F 0xFF 0 0)) = some (0, 0, 0, 0x202, 1) := by decide
theorem test_addImm_keeps_flag : alu (runs 0x71FF (v12F 0 0 1)) = some (0xFF, 0, 1, 0x202, 1) := by decide
theorem test_ldReg : alu (runs 0x8120 (v12F 0 9 0)) = some (9, 9, 0, 0x202, 1) := by decide
theorem test_orReg : alu (runs 0x8121 (v12F 0x0F 0xF0 1)) = some (0xFF, 0xF0, 1, 0x202, 1) := by decide
theorem test_andReg : alu (runs 0x8122 (v12F 0x3C 0x0F 1)) = some (0x0C, 0x0F, 1, 0x202, 1) := by decide
theorem test_xorReg : alu (runs 0x8123 (v12F 0xFF 0x0F 1)) = some (0xF0, 0x0F, 1, 0x202, 1) := by decide
theorem test_addReg_carry : alu (runs 0x8124 (v12F 0x80 0x80 0)) = some (0, 0x80, 1, 0x202, 1) := by decide
theorem test_addReg_x_is_f : alu (runs 0x8F14 (v12F 0x01 0 0xFF)) = some (0x01, 0, 1, 0x202, 1) := by decide
theorem test_subReg_borrow : alu (runs 0x8125 (v12F 1 2 0)) = some (0xFF, 2, 0, 0x202, 1) := by decide
theorem test_subReg_equal : alu (runs 0x8125 (v12F 0 0 0)) = some (0, 0, 1, 0x202, 1) := by decide
theorem test_shrReg : alu (runs 0x8126 (v12F 0x01 0xFF 0)) = some (0, 0xFF, 1, 0x202, 1) := by decide
theorem test_shrReg_x_is_f : alu (runs 0x8F16 (v12F 0 0 0xFF)) = some (0, 0, 0, 0x202, 1) := by decide
theorem test_subnReg : alu (runs 0x8127 (v12F 0 1 0)) = some (1, 1, 1, 0x202, 1) := by decide
theorem test_subnReg_y_is_f : alu (runs 0x81F7 (v12F 0 0 1)) = some (1, 0, 1, 0x202, 1) := by decide
theorem test_shlReg : alu (runs 0x812E (v12F 0x01 0xFF 1)) = some (2, 0xFF, 0, 0x202, 1) := by decide
theorem test_shlReg_x_is_f : alu (runs 0x8F1E (v12F 0 0 0x80)) = some (0, 0, 2, 0x202, 1) := by decide
/-- `C10F`: exactly one draw; B3's `C100` is 0 for any draw. -/
theorem test_rnd_draws_once : (runs 0xC10F base).map (fun t => (t.draws, t.pc, t.cycles)) = some (1, 0x202, 1) := by decide
theorem test_rnd_mask_zero (s : State) : ∃ t, exec (.rnd 1 0) s = .next t ∧ t.getV 1 = 0 :=
  ⟨_, rfl, by simp⟩

/-! ### The address register and memory, B4 -/

theorem test_ldI : (runs 0xA000 (base.setI 0x1234)).map State.i = some 0 := by decide
theorem test_ldI_top : (runs 0xAFFF base).map (fun t => (t.i, t.run)) = some (0x0FFF, .running) := by decide
theorem test_addIVx_past_12_bits :
    (runs 0xF11E ((base.setI 0x0FFF).setV 1 1)).map (fun t => (t.i, t.getV 15)) = some (0x1000, 0) := by decide
theorem test_addIVx_wraps : (runs 0xF11E ((base.setI 0xFFF0).setV 1 0xFF)).map State.i = some 0x00EF := by decide
theorem test_ldFVx : (runs 0xF129 (base.setV 1 0x0F)).map State.i = some 0x004B := by decide
theorem test_ldFVx_all_bits : (runs 0xF129 (base.setV 1 0xFF)).map State.i = some 0x04FB := by decide
theorem test_ldBVx :
    (runs 0xF333 ((base.setI 0x300).setV 3 0x9C)).map
      (fun t => (t.byteAt 0x300, t.byteAt 0x301, t.byteAt 0x302, t.i)) = some (1, 5, 6, 0x300) := by decide
/-- Part C, P5: `F033` at I = 0xFFD stores two digits, then faults. -/
theorem test_ldBVx_out :
    (runs 0xF033 ((base.setI 0xFFD).setV 0 0xFF)).map
      (fun t => (t.byteAt 4093, t.byteAt 4094, t.run, t.pc, t.cycles)) =
      some (2, 5, .halted (.outOfBounds 4095), 0x202, 0) := by decide
theorem test_storeRegs_one :
    (runs 0xF055 (((base.setI 0x400).setV 0 0xAB).setV 1 0xCD)).map
      (fun t => (t.byteAt 0x400, t.byteAt 0x401, t.i)) = some (0xAB, 0, 0x400) := by decide
/-- B4: the font area is writable. -/
theorem test_storeRegs_font : (runs 0xF055 ((base.setI 5).setV 0 0xFF)).map (fun t => t.byteAt 5) = some 0xFF := by decide
theorem test_loadRegs :
    (runs 0xF265 (poke 0x301 1 (poke 0x302 5 ((base.setI 0x300).setV 3 9)))).map
      (fun t => (t.getV 0, t.getV 1, t.getV 2, t.getV 3, t.i)) = some (0, 1, 5, 9, 0x300) := by decide
theorem test_loadRegs_out :
    (runs 0xF265 (poke 4093 0x11 (poke 4094 0x22 ((base.setI 4093).setV 2 9)))).map
      (fun t => (t.getV 0, t.getV 1, t.getV 2, t.run)) =
      some (0x11, 0x22, 9, .halted (.outOfBounds 4095)) := by decide

/-! ### Display, B5 -/

theorem test_cls : (runs 0x00E0 ((dot 3 4 base).setV 15 5)).map (fun t => (t.fb, t.getV 15)) =
    some (base.fb, 5) := by decide
/-- B5: wrap in both axes. -/
theorem test_drw_wraps :
    (runs 0xD012 (poke 0x300 0xFF (poke 0x301 0x81 (((base.setI 0x300).setV 0 60).setV 1 31)))).map
      (fun t => (rowOn 31 t, rowOn 0 t, t.getV 15)) =
      some ([0, 1, 2, 3, 60, 61, 62, 63], [3, 60], 0) := by decide
/-- B5: one pixel collides. -/
theorem test_drw_collides :
    (runs 0xD011 (poke 0x300 0xF0 ((dot 3 0 (base.setI 0x300)).setV 15 0))).map
      (fun t => (rowOn 0 t, t.getV 15)) = some ([0, 1, 2], 1) := by decide

/-! ### Keys, B6 -/

theorem test_skp : (runs 0xE19E ((base.setV 1 5).setKey (some 5))).map State.pc = some 0x204 := by decide
theorem test_skp_no_key_is_not_key_0 : (runs 0xE19E base).map State.pc = some 0x202 := by decide
theorem test_sknp : (runs 0xE1A1 ((base.setV 1 5).setKey (some 5))).map State.pc = some 0x202 := by decide
theorem test_sknp_all_bits : (runs 0xE1A1 ((base.setV 1 0x15).setKey (some 5))).map State.pc = some 0x204 := by decide
theorem test_ldVxK_opens :
    (runs 0xF30A (base.setKey (some 11))).map (fun t => (t.run, t.wait, t.pc, t.cycles)) =
      some (.waitKey, 3, 0x202, 0) := by decide
theorem test_ldVxK_poll :
    (after (((base.setRun .waitKey).setWait 3).setKey (some 11))).map (fun t => (t.getV 3, t.run, t.cycles)) =
      some (0x0B, .running, 1) := by decide

/-! ### Timers, B7 -/

theorem test_ldVxDT : (runs 0xF507 (base.setDt 0x2C)).map (fun t => (t.getV 5, t.dt)) = some (0x2C, 0x2C) := by decide
theorem test_ldDTVx :
    (runs 0xF015 (base.setV 0 0x3C)).map (fun t => (t.dt, t.st, t.events)) = some (0x3C, 0, []) := by decide
theorem test_ldSTVx_zero :
    (runs 0xF018 (base.setSt 2)).map (fun t => (t.st, t.dt, t.events)) = some (0, 0, [.toneOn]) := by decide
theorem test_tick_at_zero :
    (turn .tick base).map (fun t => (t.dt, t.st, t.events)) = some (0, 0, [.delayZero, .toneOff]) := by decide
theorem test_tick_one_to_zero :
    (turn .tick ((base.setDt 1).setSt 1)).map (fun t => (t.dt, t.st, t.events)) = some (0, 0, []) := by decide

/-! ### Faults, B8 -/

theorem test_empty_program :
    (after base).map (fun t => (t.run, t.pc, t.cycles)) = some (.halted (.unknownOpcode 0), 0x202, 0) := by decide
theorem test_fetch_low_byte :
    (after (base.setPc 0x0FFE)).map (fun t => (t.run, t.pc)) = some (.halted (.outOfBounds 4095), 0x0FFE) := by decide
theorem test_fetch_high_byte :
    (after (base.setPc 0xFFFF)).map (fun t => (t.run, t.pc)) = some (.halted (.outOfBounds 65535), 0xFFFF) := by decide
/-- R246, R47: the snapshot at the raise. -/
theorem test_fault_report :
    (runs 0x8128 (base.setV 1 7)).map State.events =
      some [.fault (.unknownOpcode 0x8128) ⟨0, (base.setV 1 7).v, 0, 0x202, [], 0, 0⟩] := by decide
theorem test_stop : (after (base.setStop true)).map (fun t => (t.run, t.events)) = some (.stopped, []) := by decide

/-! ### The host, B6, B9 -/

theorem test_key_down_replaces :
    (turn (.host (.keyDown 9)) (base.setKey (some 3))).map State.key = some (some 9) := by decide
theorem test_load :
    (turn (.host (.load [0x12, 0x00])) (poke 0x300 1 base)).map
      (fun t => (t.byteAt 0x200, t.byteAt 0x201, t.byteAt 0x300, t.byteAt 0)) = some (0x12, 0, 0, 0xF0) := by decide
theorem test_reset_after_halt :
    (turn (.host .reset) ((poke 5 1 (base.setRun (.halted .stackUnderflow))).setPc 7)).map
      (fun t => (t.run, t.pc, t.byteAt 5, t.mem)) = some (.running, 0x200, 0x20, []) := by decide

/-! ### Memory's canonical form -/

/-- Writing the reset content removes the entry, whatever was written before. -/
theorem test_memory_canonical :
    (poke 0x301 0 (poke 0x300 2 (poke 0x301 7 (poke 5 0x20 (poke 0x300 1 base))))).mem = [(0x300, 2)] := by decide

/-! ### The decoding of the table's words and the fetch -/

theorem test_decodeTableWord : decodeTableWord 16 0xD12F = some (.drw 1 2 15) := by decide
theorem test_withFetchWord : (after (State.reset.withFetchWord 16 0x1234)).map State.pc = some 0x234 := by decide

/-! ### Witnesses: the hypotheses of each obligation, met together, at the bounds of each clause

A free operand that no hypothesis names is left out. -/

/-- `base` with the word `w` at PC. -/
def loaded (w : Word) (s : State := base) : State := s.withFetchWord 16 w.toNat

/-- A finite stack of depth 2. -/
def shallow (stack : List Word) : State := { base with cfg := { base.cfg with stackDepth := some 2 }, stack := stack }

/-- A turn at the head of the agenda is due. -/
theorem due (s : State) (turn : Turn) (rest : List Turn) :
    TurnDue (s.setAgenda (turn :: rest)) turn (s.setAgenda rest) := .inl ⟨rest, rfl, rfl⟩

/-- A turn at the head of the ones that repeat is due, and so is the next of a free schedule. -/
theorem due_repeating (s : State) (turn : Turn) (rest : List Turn) :
    TurnDue ((s.setAgenda []).setSchedule (.repeating (turn :: rest))) turn
      ((s.setAgenda rest).setSchedule (.repeating (turn :: rest))) := .inr (.inl ⟨rfl, rest, rfl, rfl⟩)

theorem due_free (s : State) (n : Nat) :
    TurnDue ((s.setAgenda []).setSchedule (.free n)) (Config.freeTurn n)
      ((s.setAgenda []).setSchedule (.free (n + 1))) := .inr (.inr ⟨rfl, n, rfl, rfl, rfl⟩)

/-- With only the CPU's turns left, and with the CPU's turn before a tick. -/
theorem cpuTurn_both (s : State) (h : CpuAlone s) :
    CpuTurn s s ∧ CpuTurn (s.setAgenda [.cpu, .tick]) (s.setAgenda [.tick]) :=
  ⟨.inl ⟨h, rfl⟩, .inr (due s _ _)⟩

theorem mayRun_both (s : State) (ha : CpuAlone s) (hr : s.run = .running) (hp : s.pause = false)
    (hs : s.stop = false) :
    CpuMayRun s s ∧ CpuMayRun (s.setAgenda [.cpu, .tick]) (s.setAgenda [.tick]) :=
  ⟨⟨(cpuTurn_both s ha).1, hr, hp, hs⟩, (cpuTurn_both s ha).2, hr, hp, hs⟩

/-- Turns that repeat for ever: of two of them the second comes after the first, and then the first again. -/
theorem test_repeating_turns :
    (after (base.setSchedule (.repeating [.tick, .host .keyUp]))).map
      (fun t => (t.agenda, t.schedule, (after t).map State.agenda)) =
      some ([.host .keyUp], .repeating [.tick, .host .keyUp], some []) := by decide

/-- Fairness holds of a CPU that moves alone and of one that shares endless turns with ticks. -/
theorem test_fair_schedules :
    CpuFair base ∧ CpuFair (base.setSchedule (.repeating [.tick, .cpu])) ∧
      TimerFair (base.setSchedule (.repeating [.tick, .cpu])) :=
  ⟨.inl rfl, .inr (show Turn.cpu ∈ _ by decide), (show Turn.tick ∈ _ by decide)⟩

theorem mayRun_base (a : Word) : CpuMayRun (base.setPc a) (base.setPc a) := (mayRun_both _ ⟨rfl, rfl⟩ rfl rfl rfl).1

theorem base_inv : base.Inv :=
  ⟨by decide, by decide, by decide, (fun _ h => by cases h), (fun _ h => by cases h), fun _ => .inl rfl⟩

theorem witness_DecodeInvertsEncode :
    (Instr.sys 0x0DF).wf = true ∧ (Instr.sys 0x0E1).wf = true ∧ (Instr.drw 15 15 15).wf = true := by decide

theorem witness_EncodeInvertsDecode :
    decodeWord 0x0000 = .ok (.sys 0) ∧ decodeWord 0xFF65 = .ok (.loadRegs 15) := by decide

theorem witness_IllegalWordsExactly :
    decodeWord 0x5AB1 = .error (.illegal 0x5AB1) ∧ decodeWord 0x900F = .error (.illegal 0x900F) ∧
    decodeWord 0x8AB8 = .error (.illegal 0x8AB8) ∧ decodeWord 0x8ABF = .error (.illegal 0x8ABF) ∧
    decodeWord 0xE19F = .error (.illegal 0xE19F) ∧ decodeWord 0xF166 = .error (.illegal 0xF166) := by decide

/-- The last word of memory, 0xFFD. -/
theorem witness_StepRunsDecodedInstruction :
    let s := loaded 0x1200 (base.setPc 0xFFD)
    CpuMayRun s s ∧ CpuMayRun (s.setAgenda [.cpu, .tick]) (s.setAgenda [.tick]) ∧ s.pc.toNat + 1 < s.cfg.memSize ∧
      decodeWord (wordAtPc s) = .ok (.jp 0x200) :=
  ⟨(mayRun_both _ ⟨rfl, rfl⟩ rfl rfl rfl).1, (mayRun_both _ ⟨rfl, rfl⟩ rfl rfl rfl).2, by decide⟩

/-- The low byte, the high byte, the top of the 16-bit range. -/
theorem witness_FetchFaultKeepsPc :
    (CpuMayRun (base.setPc 0xFFE) (base.setPc 0xFFE) ∧
      CpuMayRun ((base.setPc 0xFFE).setAgenda [.cpu, .tick]) ((base.setPc 0xFFE).setAgenda [.tick]) ∧
      (base.setPc 0xFFE).cfg.memSize ≤ (base.setPc 0xFFE).pc.toNat + 1 ∧
      (base.setPc 0xFFE).pc.toNat < (base.setPc 0xFFE).cfg.memSize) ∧
    (CpuMayRun (base.setPc 0xFFF) (base.setPc 0xFFF) ∧ (base.setPc 0xFFF).cfg.memSize ≤ (base.setPc 0xFFF).pc.toNat) ∧
    (CpuMayRun (base.setPc 0xFFFF) (base.setPc 0xFFFF) ∧
      (base.setPc 0xFFFF).cfg.memSize ≤ (base.setPc 0xFFFF).pc.toNat) :=
  ⟨⟨mayRun_base _, (mayRun_both _ ⟨rfl, rfl⟩ rfl rfl rfl).2, by decide⟩, ⟨mayRun_base _, by decide⟩,
    ⟨mayRun_base _, by decide⟩⟩

theorem witness_UnknownOpcodeHalts :
    (CpuMayRun (loaded 0x8128) (loaded 0x8128) ∧
      CpuMayRun ((loaded 0x8128).setAgenda [.cpu, .tick]) ((loaded 0x8128).setAgenda [.tick]) ∧
      (loaded 0x8128).pc.toNat + 1 < (loaded 0x8128).cfg.memSize ∧
      ∃ r, decodeWord (wordAtPc (loaded 0x8128)) = .error r) ∧
    (CpuMayRun (base.setPc 0xFFD) (base.setPc 0xFFD) ∧ (base.setPc 0xFFD).pc.toNat + 1 < (base.setPc 0xFFD).cfg.memSize ∧
      ∃ nnn, decodeWord (wordAtPc (base.setPc 0xFFD)) = .ok (.sys nnn)) :=
  ⟨⟨(mayRun_both _ ⟨rfl, rfl⟩ rfl rfl rfl).1, (mayRun_both _ ⟨rfl, rfl⟩ rfl rfl rfl).2, by decide, .illegal 0x8128, by decide⟩, mayRun_base _, by decide, 0, by decide⟩

/-- A target that cannot be fetched, one that can, and a self-jump on the last word of memory. -/
theorem witness_JumpLoadsPc :
    base.cfg.memSize ≤ (0xFFE#12).toNat + 1 ∧ ¬ base.cfg.memSize ≤ (0xFFD#12).toNat + 1 ∧
    (let s := loaded 0x1FFD (base.setPc 0xFFD)
     CpuMayRun s s ∧ CpuMayRun (s.setAgenda [.cpu, .tick]) (s.setAgenda [.tick]) ∧
       s.pc.toNat = (0xFFD#12).toNat ∧ s.pc.toNat + 1 < s.cfg.memSize ∧ wordAtPc s = 0x1#4 ++ 0xFFD#12) :=
  ⟨by decide, by decide, (mayRun_both _ ⟨rfl, rfl⟩ rfl rfl rfl).1, (mayRun_both _ ⟨rfl, rfl⟩ rfl rfl rfl).2, by decide, by decide,
    by decide⟩

theorem witness_ReturnPopsPc :
    (base.setStack [0xFFE, 0x300]).stack = 0xFFE#16 :: [0x300] ∧ base.cfg.memSize ≤ (0xFFE#16).toNat + 1 ∧
    base.stack = [] := by decide

theorem witness_CallPushesPc :
    ¬ StackIsFull base ∧ ¬ StackIsFull (shallow [0x300]) ∧ StackIsFull (shallow [0x400, 0x300]) := by
  refine ⟨?_, ?_, 2, rfl, by decide⟩
  · rintro ⟨d, h, -⟩
    cases h
  · rintro ⟨d, h, h'⟩
    cases h
    exact absurd h' (by decide)

theorem witness_RegisterSkips : 1#4 ≠ 0 ∧ 15#4 ≠ 0 := by decide

theorem witness_SystemCallAlwaysFaults :
    (0x000#12 ≠ 0x0E0 ∧ 0x000#12 ≠ 0x0EE) ∧ (0x0E1#12 ≠ 0x0E0 ∧ 0x0E1#12 ≠ 0x0EE) := by decide

/-- For the three sums and the two shifts: a destination that is not VF, and VF. -/
theorem witness_FlagForms : (14 : RegIdx) ≠ 15 ∧ (15 : RegIdx) = 15 := by decide

/-- The last I that fits three digits, and the three that do not: two, one and no digit stored. -/
theorem witness_DecimalDigitsStored :
    (base.setI 4092).i.toNat + 2 < base.cfg.memSize ∧ base.cfg.memSize ≤ (base.setI 4093).i.toNat + 2 ∧
    (base.setI 4093).i.toNat + 1 < base.cfg.memSize ∧ (base.setI 4094).i.toNat < base.cfg.memSize ∧
    base.cfg.memSize ≤ (base.setI 4094).i.toNat + 2 ∧ base.cfg.memSize ≤ (base.setI 0xFFFF).i.toNat + 2 := by decide

/-- 16 registers at the last I that fits them, and one past it; also for `FX65` and the round trip. -/
theorem witness_RegistersStored :
    (base.setI 4079).i.toNat + (15 : RegIdx).val < base.cfg.memSize ∧
    base.cfg.memSize ≤ (base.setI 4080).i.toNat + (15 : RegIdx).val ∧
    ((14 : RegIdx) ≤ 15 ∧ (base.setI 4080).i.toNat + (14 : RegIdx).val < base.cfg.memSize) ∧
    base.cfg.memSize ≤ (base.setI 4095).i.toNat + (0 : RegIdx).val := by decide

theorem witness_RegistersLoaded :
    (base.setI 4093).i.toNat + (1 : RegIdx).val < base.cfg.memSize ∧ (1 : RegIdx) < 2 ∧
    base.cfg.memSize ≤ (base.setI 4093).i.toNat + (2 : RegIdx).val := by decide

/-- With the state after the store as the later state. -/
theorem witness_StoreThenLoadGivesBack :
    (base.setI 4079).i.toNat + (15 : RegIdx).val < base.cfg.memSize ∧
    ∃ t t' : State, exec (.storeRegs 15) (base.setI 4079) = .next t ∧ t'.cfg = t.cfg ∧ t'.i = t.i ∧
      ∀ a, t'.byteAt a = t.byteAt a := ⟨by decide, _, _, rfl, rfl, rfl, fun _ => rfl⟩

/-- Two registers and three digits at the last I that fits them; 16 registers at theirs. -/
def storedTwo : State := (base.setI 4093).setV 1 7

def storedDigits : State := (base.setI 4092).setV 1 159

/-- With a later state whose PC is at the last word of memory, which holds the two bytes stored last. -/
theorem witness_StoreSeenByNextFetch :
    (storedTwo.i.toNat + (1 : RegIdx).val < storedTwo.cfg.memSize ∧ (∃ t, exec (.storeRegs 1) storedTwo = .next t) ∧
      (nextOf (exec (.storeRegs 1) storedTwo)).map (fun t => wordAtPc (t.setPc 0xFFD)) = some 0x0007) ∧
    (base.setI 4079).i.toNat + (15 : RegIdx).val < base.cfg.memSize ∧
    (storedDigits.i.toNat + 2 < storedDigits.cfg.memSize ∧ (∃ t, exec (.ldBVx 1) storedDigits = .next t) ∧
      (nextOf (exec (.ldBVx 1) storedDigits)).map (fun t => wordAtPc (t.setPc 0xFFD)) = some 0x0509) ∧
    (∀ t : State, (t.setPc 0xFFD).cfg = t.cfg ∧ ∀ a, (t.setPc 0xFFD).byteAt a = t.byteAt a) ∧
    (0xFFD#16).toNat + 1 < base.cfg.memSize :=
  ⟨⟨by decide, ⟨_, rfl⟩, by decide⟩, by decide, ⟨by decide, ⟨_, rfl⟩, by decide⟩, fun _ => ⟨rfl, fun _ => rfl⟩,
    by decide⟩

/-- A state that holds a one-pixel sprite row in the last byte of memory. -/
def spriteState : State := poke 4094 0x80 (base.setI 4094)

theorem spriteState_bit : SpriteBitSet spriteState 0 0 := by
  unfold SpriteBitSet
  decide

/-- No row with I out of range; the last row that lies in memory; a pixel covered and one not; a collision and none. -/
theorem witness_DrawXorsAndReportsCollision :
    ((0 : Fin 16).val = 0 ∨ (base.setI 0xFFFF).i.toNat + (0 : Fin 16).val ≤ base.cfg.memSize) ∧
    spriteState.i.toNat + (1 : Fin 16).val ≤ spriteState.cfg.memSize ∧
    SpriteCovers spriteState 0 0 1 64 32 ∧ ¬ SpriteCovers spriteState 0 0 1 0 1 ∧
    SpriteCollides (dot 0 0 spriteState) 0 0 1 ∧ ¬ SpriteCollides spriteState 0 0 1 := by
  refine ⟨by decide, by decide, ⟨0, 0, by decide, by decide, spriteState_bit, by decide⟩, ?_,
    ⟨0, 0, by decide, by decide, spriteState_bit, by decide⟩, ?_⟩
  · rintro ⟨r, c, h1, -, -, -, h2⟩
    omega
  · rintro ⟨r, c, -, -, -, h⟩
    exact absurd h (by simp [spriteState, poke, base, State.reset, fbRead])

/-- Two rows from the last byte of memory, one row from the first address outside. -/
theorem witness_DrawOutOfBoundsKeepsRowsBefore :
    ((2 : Fin 16).val ≠ 0 ∧ spriteState.cfg.memSize < spriteState.i.toNat + (2 : Fin 16).val) ∧
    ((1 : Fin 16).val ≠ 0 ∧ base.cfg.memSize < (base.setI 4095).i.toNat + (1 : Fin 16).val) ∧
    SpriteCovers spriteState 0 0 (spriteState.cfg.memSize - spriteState.i.toNat) 0 0 := by
  exact ⟨by decide, by decide, 0, 0, by decide, by decide, spriteState_bit, by decide⟩

/-- The same registers, and a pixel unset before. -/
theorem witness_DrawTwiceRestores :
    spriteState.i.toNat + (1 : Fin 16).val ≤ spriteState.cfg.memSize ∧
    (∃ t, exec (.drw 0 1 1) spriteState = .next t ∧ t.getV 0 = spriteState.getV 0 ∧ t.getV 1 = spriteState.getV 1) ∧
    (∃ r c, r < (1 : Fin 16).val ∧ c < 8 ∧ SpriteBitSet spriteState r c ∧
      fbRead spriteState.fb ((spriteState.getV 0).toNat + c) ((spriteState.getV 1).toNat + r) = false) :=
  ⟨by decide, ⟨_, rfl, by decide, by decide⟩, 0, 0, by decide, by decide, spriteState_bit, by decide⟩

theorem witness_FramebufferPrimitives : 269 % 32 < 32 ∧ 262 % 64 < 64 := by decide

theorem witness_KeySkips :
    (∃ k : Key, ((base.setV 1 15).setKey (some 15)).key = some k ∧ k.val = ((base.setV 1 15).getV 1).toNat) ∧
    ¬ (∃ k : Key, base.key = some k ∧ k.val = (base.getV 1).toNat) ∧
    ¬ (∃ k : Key, (base.setKey (some 15)).key = some k ∧ k.val = ((base.setV 1 0x1F).getV 1).toNat) := by
  refine ⟨⟨15, rfl, by decide⟩, ?_, ?_⟩
  · rintro ⟨k, h, -⟩
    cases h
  · rintro ⟨k, h, h'⟩
    cases h
    exact absurd h' (by decide)

theorem witness_KeyWaitCompletesOnKey :
    let s := (base.setRun .waitKey).setWait 15
    CpuTurn s s ∧ CpuTurn (s.setAgenda [.cpu, .tick]) (s.setAgenda [.tick]) ∧ s.run = .waitKey ∧ s.pause = false ∧
      s.stop = false ∧ s.key = none ∧ (s.setKey (some 0)).key = some 0 :=
  ⟨(cpuTurn_both _ ⟨rfl, rfl⟩).1, (cpuTurn_both _ ⟨rfl, rfl⟩).2, by decide⟩

/-- An environment that is not bound to the sound events. -/
def silent : State := { base with cfg := { base.cfg with soundCbBound := false } }

/-- Both timers report when they are bound; a set of the sound timer with and without the binding. -/
theorem witness_TimersSet :
    (base.cfg.delayCbBound = true ∧ base.cfg.soundCbBound = true ∧
      ∃ t, exec (.ldSTVx 1) base = .next t ∧ t.events = base.events ++ [.toneOn]) ∧
    (silent.cfg.soundCbBound = false ∧ ∃ t, exec (.ldSTVx 1) silent = .next t ∧ t.events = silent.events) :=
  ⟨⟨by decide, by decide, _, rfl, by decide⟩, by decide, _, rfl, by decide⟩

/-- From the agenda, and from turns that repeat. -/
theorem witness_TickTurn :
    TurnDue (base.setAgenda [.tick, .cpu]) .tick (base.setAgenda [.cpu]) ∧
    TurnDue ((base.setAgenda []).setSchedule (.repeating [.tick, .cpu])) .tick
      ((base.setAgenda [.cpu]).setSchedule (.repeating [.tick, .cpu])) := ⟨due _ _ _, due_repeating _ _ _⟩

/-- The later states, with every level set. -/
theorem witness_FaultEntryHalts :
    let f := CpuFault.stackUnderflow
    let u := ((base.setRun (.halted f)).setPause true).setStop true
    raise f base = .next (enterFault f base) ∧ u.run = (enterFault f base).run ∧ CpuAlone u ∧
      (u.setAgenda [.cpu]).run = (enterFault f base).run ∧ TurnDue (u.setAgenda [.cpu]) .cpu (u.setAgenda []) :=
  ⟨rfl, rfl, ⟨rfl, rfl⟩, rfl, due _ _ _⟩

theorem witness_StopTransition :
    (let s := (base.setStop true).setPause true
     (CpuTurn s s ∧ CpuTurn (s.setAgenda [.cpu, .tick]) (s.setAgenda [.tick])) ∧ s.stop = true ∧ s.run = .running ∧
       (s.setRun .waitKey).run = .waitKey) ∧
    (let s := base.setRun .stopped
     s.run = .stopped ∧ CpuAlone s ∧ TurnDue (s.setAgenda [.cpu]) .cpu (s.setAgenda [])) :=
  ⟨⟨cpuTurn_both _ ⟨rfl, rfl⟩, by decide⟩, rfl, ⟨rfl, rfl⟩, due _ _ _⟩

theorem witness_PauseHoldsCpu :
    let s := base.setPause true
    s.run = .running ∧ (s.setRun .waitKey).run = .waitKey ∧ s.pause = true ∧ s.stop = false ∧ CpuAlone s ∧
      TurnDue (s.setAgenda [.cpu, .tick]) .cpu (s.setAgenda [.tick]) ∧
      TurnDue (s.setAgenda [.host (.setPause false)]) (.host (.setPause false)) (s.setAgenda []) :=
  ⟨rfl, rfl, rfl, rfl, ⟨rfl, rfl⟩, due _ _ _, due _ _ _⟩

/-- A tick after a halt, and a tick after a stop. -/
theorem witness_HaltAndStopAreFinal :
    (let s := ((base.setRun (.halted .stackUnderflow)).setDt 2).setAgenda [.tick]
     (∃ t, Steps s t ∧ t.dt = 1) ∧ NeverDue (.host .reset) s ∧ ∃ f, s.run = .halted f) ∧
    (let s := ((base.setRun .stopped).setDt 2).setAgenda [.tick]
     (∃ t, Steps s t ∧ t.dt = 1) ∧ NeverDue (.host .reset) s ∧ s.run = .stopped) :=
  ⟨⟨⟨_, .tail (.refl _) rfl, rfl⟩, ⟨by decide, (List.not_mem_nil : _ ∉ ([] : List Turn))⟩, _, rfl⟩,
    ⟨_, .tail (.refl _) rfl, rfl⟩, ⟨by decide, (List.not_mem_nil : _ ∉ ([] : List Turn))⟩, rfl⟩

/-- An instruction that writes PC, a skip, and one that writes I. -/
theorem witness_OnlyNamedFormsWritePcAndIndex :
    (∃ t, exec (.jp 0x300) base = .next t ∧ t.pc ≠ base.pc) ∧ (∃ t, exec (.seImm 0 0) base = .next t ∧ t.pc ≠ base.pc) ∧
    (∃ t, exec (.ldI 1) base = .next t ∧ t.i ≠ base.i) :=
  ⟨⟨_, rfl, by decide⟩, ⟨_, rfl, by decide⟩, _, rfl, by decide⟩

/-- A flag, and a named destination. -/
theorem witness_OnlyNamedFormsWriteFlag :
    (∃ t, exec (.subReg 1 2) base = .next t ∧ t.getV 15 ≠ base.getV 15) ∧
    (∃ t, exec (.ldImm 15 7) base = .next t ∧ t.getV 15 ≠ base.getV 15) :=
  ⟨⟨_, rfl, by decide⟩, _, rfl, by decide⟩

theorem witness_OnlyNamedFormsWriteUnits :
    (∃ t, exec (.call 0x300) base = .next t ∧ t.stack ≠ base.stack) ∧
    (∃ t, exec .cls (dot 0 0 base) = .next t ∧ t.fb ≠ (dot 0 0 base).fb) ∧
    (∃ t, exec (.ldDTVx 1) (base.setDt 1) = .next t ∧ t.dt ≠ (base.setDt 1).dt) ∧
    (∃ t, exec (.ldSTVx 1) (base.setSt 1) = .next t ∧ t.st ≠ (base.setSt 1).st) :=
  ⟨⟨_, rfl, by decide⟩, ⟨_, rfl, by decide⟩, ⟨_, rfl, by decide⟩, _, rfl, by decide⟩

/-- The last of three digits and the last of 16 registers, in the last byte of memory. -/
theorem witness_OnlyStoresChangeMemory :
    (∃ t, exec (.ldBVx 1) ((base.setI 4092).setV 1 5) = .next t ∧
      t.byteAt 4094 ≠ ((base.setI 4092).setV 1 5).byteAt 4094) ∧
    (∃ t, exec (.storeRegs 15) ((base.setI 4079).setV 15 5) = .next t ∧
      t.byteAt 4094 ≠ ((base.setI 4079).setV 15 5).byteAt 4094) :=
  ⟨⟨_, rfl, by decide⟩, _, rfl, by decide⟩

/-- One that completes at saturation, one that faults, one that waits. -/
theorem witness_CyclesCountCompletedInstructions :
    (base.setCycles 1000).run = .running ∧ (∃ t, exec .cls (base.setCycles 1000) = .next t) ∧
    (∃ t, exec .ret base = .next t) ∧ (∃ t, exec (.ldVxK 1) base = .next t) := ⟨rfl, ⟨_, rfl⟩, ⟨_, rfl⟩, _, rfl⟩

theorem witness_DelayRisesOnlyBySet :
    ∃ t, step (loaded 0xF115 (base.setV 1 9)) = .next t ∧ (loaded 0xF115 (base.setV 1 9)).dt.toNat < t.dt.toNat :=
  ⟨_, rfl, by decide⟩

/-- The last address of memory and the first outside it. -/
theorem witness_MemoryPrimitives : 4094 < base.cfg.memSize ∧ base.cfg.memSize ≤ 4095 := by decide

/-- Both sides of each bound: the font's end and the memory's end. -/
theorem witness_ResetValues : 79 < 80 ∧ (80 ≤ 80 ∧ 80 < 4095) ∧ (80 ≤ 4094 ∧ 4094 < 4095) ∧ 4095 ≤ 4095 := by decide

/-- Each of the four conditions alone, and the refusal in RUNNING and in WAIT_KEY. -/
theorem witness_HostResetTurn :
    let s := base.setStarted true
    TurnDue (s.setAgenda [.host .reset]) (.host .reset) (s.setAgenda []) ∧ (s.setStarted false).started = false ∧ (s.setPause true).pause = true ∧
      (s.setRun (.halted .stackOverflow)).run = .halted .stackOverflow ∧ (s.setRun .stopped).run = .stopped ∧
      (s.started = true ∧ s.pause = false ∧ s.run = .running) ∧ (s.setRun .waitKey).run = .waitKey :=
  ⟨due _ _ _, by decide⟩

/-- A program of three bytes in a memory of 0x202 cells: the second byte is its last cell, the third is dropped. -/
theorem witness_LoadTurn :
    let bytes : List Byte := [1, 2, 3]
    let s := { base with cfg := { base.cfg with memSize := 0x202 } }
    TurnDue (s.setAgenda [.host (.load bytes)]) (.host (.load bytes)) (s.setAgenda []) ∧ s.started = false ∧ s.run = .running ∧ 0x1FF < 0x200 ∧
      (1 < bytes.length ∧ 0x200 + 1 < s.cfg.memSize) ∧ (0x200 ≤ 0x202 ∧ s.cfg.memSize ≤ 0x202) ∧
      (0x200 ≤ 0x203 ∧ 0x200 + bytes.length ≤ 0x203) ∧ (s.setStarted true).started = true ∧
      (s.setRun (.halted .stackUnderflow)).run = .halted .stackUnderflow ∧ (s.setRun .stopped).run = .stopped :=
  ⟨due _ _ _, by decide⟩

/-- Each turn from the agenda, and whichever it is from a free schedule. -/
theorem witness_KeyAndDisplayTurns :
    TurnDue (base.setAgenda [.host (.keyDown 15)]) (.host (.keyDown 15)) (base.setAgenda []) ∧
    TurnDue (base.setAgenda [.host .keyUp]) (.host .keyUp) (base.setAgenda []) ∧
    TurnDue (base.setAgenda [.host (.fbRead 64 32)]) (.host (.fbRead 64 32)) (base.setAgenda []) ∧
    TurnDue (base.setAgenda [.host (.setPause true)]) (.host (.setPause true)) (base.setAgenda []) ∧
    TurnDue (base.setAgenda [.host (.setPause false)]) (.host (.setPause false)) (base.setAgenda []) ∧
    TurnDue (base.setAgenda [.host .setStop]) (.host .setStop) (base.setAgenda []) ∧
    TurnDue ((base.setAgenda []).setSchedule (.free 7)) (Config.freeTurn 7)
      ((base.setAgenda []).setSchedule (.free 8)) :=
  ⟨due _ _ _, due _ _ _, due _ _ _, due _ _ _, due _ _ _, due _ _ _, due_free _ _⟩

/-- A state with the invariant whose step completes, and one whose step faults. -/
theorem witness_StepKeepsInvariant :
    (base.Inv ∧ ∃ t, step base = .next t) ∧
    (∃ s t : State, s.Inv ∧ Memory.wf s.cfg s.mem = true ∧ s.mem ≠ [] ∧ step s = .next t) :=
  ⟨⟨base_inv, _, rfl⟩, loaded 0x1200, _,
    ⟨by decide, by decide, by decide, (fun _ h => by cases h), (fun _ h => by cases h), fun _ => .inl rfl⟩,
    by decide, by decide, rfl⟩

theorem witness_CanonicalMemoryIsUnique :
    Memory.wf base.cfg [(0x05, 0x21), (0x200, 0x12), (4094, 1)] = true ∧
    ∀ a, Memory.read base.cfg [(0x05, 0x21), (0x200, 0x12), (4094, 1)] a =
      Memory.read base.cfg (poke 4094 1 (poke 5 0x21 (poke 0x200 0x12 base))).mem a :=
  ⟨by decide, fun _ => rfl⟩

end Sys2Proof.Tests
end

/-! PROOFS. The numeric primitives with flag capture (00_scope.md R10): the value of each result as a natural number and
when its flag is set. -/

namespace Sys2Proof.Machine

@[simp] theorem add8_fst_toNat (a b : Byte) : (add8 a b).1.toNat = (a.toNat + b.toNat) % 256 :=
  BitVec.toNat_ofNat _ _

@[simp] theorem add8_snd_iff (a b : Byte) : (add8 a b).2 = true ↔ a.toNat + b.toNat > 255 :=
  decide_eq_true_iff

/-- The difference with a borrow of 256 added where it is needed is below 256, so storing it in a byte loses nothing. -/
@[simp] theorem sub8_fst_toNat (a b : Byte) :
    (sub8 a b).1.toNat = if b.toNat ≤ a.toNat then a.toNat - b.toNat else a.toNat + 256 - b.toNat := by
  have ha : a.toNat < 256 := a.isLt
  have fits : (if b.toNat ≤ a.toNat then a.toNat - b.toNat else a.toNat + 256 - b.toNat) < 256 := by
    split <;> omega
  exact (BitVec.toNat_ofNat _ _).trans (Nat.mod_eq_of_lt fits)

@[simp] theorem sub8_snd_iff (a b : Byte) : (sub8 a b).2 = true ↔ a.toNat < b.toNat :=
  decide_eq_true_iff

@[simp] theorem add16_toNat (a b : Word) : (add16 a b).toNat = (a.toNat + b.toNat) % 65536 :=
  BitVec.toNat_add a b

/-- Settles O53: the results and the flags of `add8`, `sub8` and `add16`, each by its own lemma. -/
theorem numericPrimitives : Obligations.NumericPrimitives :=
  ⟨fun a b => ⟨add8_fst_toNat a b, add8_snd_iff a b⟩, fun a b => ⟨sub8_fst_toNat a b, sub8_snd_iff a b⟩, add16_toNat⟩

end Sys2Proof.Machine

/-! PROOFS. The one-byte accesses (20_memory.md R61, R62): what a write of memory leaves unchanged, and what a read after
it answers. -/

namespace Sys2Proof.Machine

/-- Putting a new memory in place touches memory only. -/
theorem setMem_keeps (s : State) (m : Memory) : KeepsAllBut [.mem] s (s.setMem m) := by
  intro p hp
  cases p with
  | mem => exact absurd (List.mem_singleton_self _) hp
  | _ => simp [Part.same]

theorem write_keepsMemOutside (s : State) (a : Nat) (b : Byte) :
    KeepsMemOutside a 1 s (s.setMem (Memory.write s.cfg s.mem a b)) := by
  intro k hk
  have hne : k ≠ a := by omega
  rw [byteAt_write, if_neg hne]

theorem memRead_write_same {s : State} {a : Nat} (b : Byte) (h : a < s.cfg.memSize) :
    memRead (s.setMem (Memory.write s.cfg s.mem a b)) a = .ok b := by
  rw [memRead_in (by simpa using h), byteAt_write, if_pos rfl]

/-- Settles O52: on either side of the bound the outcome is that of the primitive's own law; a write in range reads back
and keeps the rest. -/
theorem memoryPrimitives : Obligations.MemoryPrimitives := by
  refine fun s a => ⟨fun h => ⟨memRead_in h, fun b => ?_⟩, fun h => ⟨memRead_out h, fun b => memWrite_out b h⟩⟩
  exact ⟨_, memWrite_in b h, memRead_write_same b h, write_keepsMemOutside s a b, setMem_keeps s _⟩

end Sys2Proof.Machine

/-! PROOFS. Frames: how they combine, and those of the setters and shared operations that control transfer uses; then how
an instruction that completes, one that raises and one that skips ends. -/

namespace Sys2Proof.Machine

/-- A claim about every piece of state, piece by piece. -/
theorem Part.forall_iff {P : Part → Prop} : (∀ p, P p) ↔
    P .cfg ∧ P .regs ∧ P .i ∧ P .pc ∧ P .stack ∧ P .mem ∧ P .fb ∧ P .dt ∧ P .st ∧ P .key ∧ P .cycles ∧ P .run ∧
    P .wait ∧ P .pause ∧ P .stop ∧ P .started ∧ P .draws ∧ P .agenda ∧ P .schedule ∧ P .events ∧ P .fbReplies := by
  refine ⟨fun h => by simp only [h, and_self], fun h p => ?_⟩
  cases p <;> simp only [h]

theorem Part.same_trans {p : Part} {s t u : State} (h : p.same s t) (h' : p.same t u) : p.same s u := by
  cases p with
  | regs | mem => exact fun k => (h' k).trans (h k)
  | fb => exact fun x y => (h' x y).trans (h x y)
  | _ => exact Eq.trans h' h

theorem KeepsAllBut.trans {ps qs : List Part} {s t u : State} (h : KeepsAllBut ps s t) (h' : KeepsAllBut qs t u) :
    KeepsAllBut (ps ++ qs) s u := by
  intro p hp
  rw [List.mem_append, not_or] at hp
  exact Part.same_trans (h p hp.1) (h' p hp.2)

theorem KeepsAllBut.mono {ps qs : List Part} {s t : State} (h : KeepsAllBut ps s t) (hsub : ps ⊆ qs) :
    KeepsAllBut qs s t :=
  fun p hp => h p fun hmem => hp (hsub hmem)

/-- A piece that ends with its old content, whatever happened between, need not be named. -/
theorem KeepsAllBut.restored {p : Part} {ps : List Part} {s t : State} (h : KeepsAllBut (p :: ps) s t)
    (hp : p.same s t) : KeepsAllBut ps s t := by
  intro q hq
  by_cases e : q = p
  · exact e ▸ hp
  · exact h q (by simp [e, hq])

theorem setPc_keeps (s : State) (a : Word) : KeepsAllBut [.pc] s (s.setPc a) := by
  simp [KeepsAllBut, Part.forall_iff, Part.same]

theorem setStack_keeps (s : State) (a : List Word) : KeepsAllBut [.stack] s (s.setStack a) := by
  simp [KeepsAllBut, Part.forall_iff, Part.same]

theorem setCycles_keeps (s : State) (n : Nat) : KeepsAllBut [.cycles] s (s.setCycles n) := by
  simp [KeepsAllBut, Part.forall_iff, Part.same]

theorem setStarted_keeps (s : State) (b : Bool) : KeepsAllBut [.started] s (s.setStarted b) := by
  simp [KeepsAllBut, Part.forall_iff, Part.same]

theorem skipIf_keeps (c : Bool) (s : State) : KeepsAllBut [.pc] s (skipIf c s) := by
  simp [KeepsAllBut, Part.forall_iff, Part.same]

theorem enterFault_keeps (f : CpuFault) (s : State) : KeepsAllBut [.run, .events] s (enterFault f s) := by
  simp [KeepsAllBut, Part.forall_iff, Part.same]

/-- Raising a fault takes it and touches nothing else (60_exceptions.md R245, R246). -/
theorem raise_spec (f : CpuFault) (s : State) :
    ∃ t, raise f s = .next t ∧ TakesFault f s t ∧ KeepsAllBut [.run, .events] s t :=
  ⟨enterFault f s, rfl, ⟨enterFault_run f s, by simp [State.snapshot]⟩, enterFault_keeps f s⟩

/-- How an instruction ends whose work led from `s` to `u`: it counts one and touches nothing else of `u`, so that the
frame of the work is the frame of the instruction (40_control_flow.md R120). -/
theorem complete_spec {ps : List Part} {s u : State} (hwork : KeepsAllBut ps s u) (hcfg : .cfg ∉ ps)
    (hcycles : .cycles ∉ ps) :
    ∃ t, complete u = .next t ∧ CountsOne s t ∧ KeepsAllBut (ps ++ [.cycles]) s t ∧ KeepsAllBut [.cycles] u t := by
  have ecfg : u.cfg = s.cfg := hwork .cfg hcfg
  have ecycles : u.cycles = s.cycles := hwork .cycles hcycles
  have hcount := setCycles_keeps u (min (u.cycles + 1) u.cfg.cycleMax)
  exact ⟨_, rfl, by simp [CountsOne, ecfg, ecycles], hwork.trans hcount, hcount⟩

/-- Every form that ends in a skip under a condition (40_control_flow.md R121). -/
theorem skip_spec {i : Instr} {c : Bool} {s : State} (h : exec i s = complete (skipIf c s)) :
    ∃ t, exec i s = .next t ∧ CountsOne s t ∧ KeepsAllBut [.pc, .cycles] s t ∧
      t.pc = if c then s.pc + 2 else s.pc := by
  obtain ⟨t, ht, hcount, hkeeps, hafter⟩ := complete_spec (skipIf_keeps c s) (by decide) (by decide)
  have hpc : t.pc = (skipIf c s).pc := hafter .pc (by decide)
  exact ⟨t, h.trans ht, hcount, hkeeps, hpc.trans (skipIf_pc c s)⟩

end Sys2Proof.Machine

/-! PROOFS. The step at the CPU's turn, and the fetch after a transfer of control (20_memory.md R64). -/

namespace Sys2Proof.Machine

theorem fetch_in {s : State} (h : s.pc.toNat + 1 < s.cfg.memSize) : fetch s = .ok (wordAtPc s, s.setPc (s.pc + 2)) :=
  (fetch_spec s).trans (if_pos h)

theorem fetch_out {s : State} (h : s.cfg.memSize ≤ s.pc.toNat + 1) :
    fetch s = .error (.outOfBounds (max s.pc.toNat s.cfg.memSize)) :=
  (fetch_spec s).trans (if_neg (Nat.not_lt.2 h))

/-- A transfer of control to an address whose word does not lie in memory shows at the next fetch. -/
theorem fetch_out_of_target {s t : State} {n : Nat} (hcfg : t.cfg = s.cfg) (hpc : t.pc.toNat = n)
    (hout : s.cfg.memSize ≤ n + 1) : fetch t = .error (.outOfBounds (max n s.cfg.memSize)) := by
  rw [← hcfg, ← hpc] at hout ⊢
  exact fetch_out hout

/-- At the CPU's turn the instruction at PC runs, on the state whose PC is past its word. -/
theorem step_eq_exec {s u : State} {i : Instr} (hturn : CpuMayRun s u) (hmem : u.pc.toNat + 1 < u.cfg.memSize)
    (hword : decodeWord (wordAtPc u) = .ok i) : step s = exec i ((u.setStarted true).setPc (u.pc + 2)) := by
  have hfetch : fetch (u.setStarted true) = .ok (wordAtPc u, (u.setStarted true).setPc (u.pc + 2)) := fetch_in hmem
  simp only [step_of_cpuMayRun hturn, instructionStep, hfetch, hword]

end Sys2Proof.Machine

/-! PROOFS. Control transfer (40_control_flow.md): for each form its word, and what it does in every state. -/

namespace Sys2Proof.Machine

theorem decodeWord_jp (nnn : BitVec 12) : decodeWord (0x1#4 ++ nnn) = .ok (.jp nnn) := by simp [decodeWord]

theorem exec_jp_spec (nnn : BitVec 12) (s : State) :
    ∃ t, exec (.jp nnn) s = .next t ∧ t.pc = zextAddr nnn ∧ CountsOne s t ∧ KeepsAllBut [.pc, .cycles] s t := by
  obtain ⟨t, ht, hcount, hkeeps, hafter⟩ := complete_spec (setPc_keeps s (zextAddr nnn)) (by decide) (by decide)
  exact ⟨t, ht, hafter .pc (by decide), hcount, hkeeps⟩

/-- A jump to its own address leads back to the PC its word was fetched from, so only the count remains. -/
theorem step_selfJump {nnn : BitVec 12} {s u : State} (hturn : CpuMayRun s u) (hpc : u.pc.toNat = nnn.toNat)
    (hmem : u.pc.toNat + 1 < u.cfg.memSize) (hword : wordAtPc u = 0x1#4 ++ nnn) :
    ∃ t, step s = .next t ∧ CountsOne u t ∧ KeepsAllBut [.cycles, .started] u t := by
  have hdecode : decodeWord (wordAtPc u) = .ok (.jp nnn) := hword ▸ decodeWord_jp nnn
  have hfetched := (setStarted_keeps u true).trans (setPc_keeps (u.setStarted true) (u.pc + 2))
  obtain ⟨t, ht, htarget, hcount, hkeeps⟩ := exec_jp_spec nnn ((u.setStarted true).setPc (u.pc + 2))
  have hback : t.pc = u.pc := htarget.trans (BitVec.eq_of_toNat_eq ((zextAddr_toNat nnn).trans hpc.symm))
  have hall : KeepsAllBut [.pc, .cycles, .started] u t := (hfetched.trans hkeeps).mono (by decide)
  exact ⟨t, (step_eq_exec hturn hmem hdecode).trans ht, hcount, hall.restored hback⟩

/-- Settles O8: the jump's own law, the fetch from its target, and the jump to itself. -/
theorem jumpLoadsPc : Obligations.JumpLoadsPc := by
  refine fun nnn => ⟨decodeWord_jp nnn, fun s => ?_, fun s u => step_selfJump⟩
  obtain ⟨t, ht, htarget, hcount, hkeeps⟩ := exec_jp_spec nnn s
  have hpc : t.pc.toNat = nnn.toNat := htarget ▸ zextAddr_toNat nnn
  exact ⟨t, ht, hpc, hcount, hkeeps, fetch_out_of_target (hkeeps .cfg (by decide)) hpc⟩

/-- Settles O9: the top of a non-empty stack becomes PC; popping an empty one raises. -/
theorem returnPopsPc : Obligations.ReturnPopsPc := by
  refine ⟨by decide, fun s a rest hstack => ?_, fun s hstack => ?_⟩
  · have hexec : exec .ret s = complete ((s.setStack rest).setPc a) := by simp only [exec, execRet, pop_cons hstack]
    obtain ⟨t, ht, hcount, hkeeps, hafter⟩ :=
      complete_spec ((setStack_keeps s rest).trans (setPc_keeps _ a)) (by decide) (by decide)
    have hpc : t.pc = a := hafter .pc (by decide)
    exact ⟨t, hexec.trans ht, hpc, hafter .stack (by decide), hcount, hkeeps.mono (by decide),
      fetch_out_of_target (hkeeps .cfg (by decide)) (congrArg BitVec.toNat hpc)⟩
  · have hexec : exec .ret s = raise .stackUnderflow s := by simp only [exec, execRet, pop_nil hstack]
    exact hexec ▸ raise_spec .stackUnderflow s

/-- Settles O10: with room the advanced PC is pushed before PC is written; pushing on a full stack raises. -/
theorem callPushesPc : Obligations.CallPushesPc := by
  refine fun nnn => ⟨by simp [decodeWord], fun s hroom => ?_, fun s hfull => ?_⟩
  · have hfree : s.stackFull = false := Bool.eq_false_iff.2 fun h => hroom ((stackFull_iff s).1 h)
    have hexec : exec (.call nnn) s = complete ((s.setStack (s.pc :: s.stack)).setPc (zextAddr nnn)) := by
      simp only [exec, execCall, push_room s.pc hfree]
    obtain ⟨t, ht, hcount, hkeeps, hafter⟩ :=
      complete_spec ((setStack_keeps s (s.pc :: s.stack)).trans (setPc_keeps _ (zextAddr nnn))) (by decide) (by decide)
    have hpc : t.pc = zextAddr nnn := hafter .pc (by decide)
    exact ⟨t, hexec.trans ht, hpc ▸ zextAddr_toNat nnn, hafter .stack (by decide), hcount, hkeeps.mono (by decide)⟩
  · have hexec : exec (.call nnn) s = raise .stackOverflow s := by
      simp only [exec, execCall, push_full s.pc ((stackFull_iff s).2 hfull)]
    exact hexec ▸ raise_spec .stackOverflow s

/-- Settles O11: both skips are the skip's own law, on a condition and on its negation. -/
theorem immediateSkips : Obligations.ImmediateSkips := by
  refine fun x nn => ⟨by simp [decodeWord], by simp [decodeWord], fun s => ⟨?_, ?_⟩⟩
  · simpa using skip_spec (i := .seImm x nn) (s := s) rfl
  · simpa using skip_spec (i := .sneImm x nn) (s := s) rfl

/-- Settles O12: the low nibble decides whether the word is a form at all; then as for the skips on an immediate. -/
theorem registerSkips : Obligations.RegisterSkips := by
  refine fun x y => ⟨by simp [decodeWord], by simp [decodeWord], fun n hn => ?_, fun s => ⟨?_, ?_⟩⟩
  · have hnot : ¬ n = 0#4 := hn
    simp [decodeWord, hnot]
  · simpa using skip_spec (i := .seReg x y) (s := s) rfl
  · simpa using skip_spec (i := .sneReg x y) (s := s) rfl

/-- The address immediate of `0NNN` is its whole word. -/
theorem zextAddr_eq_append (nnn : BitVec 12) : zextAddr nnn = 0x0#4 ++ nnn :=
  BitVec.setWidth_eq_append (by decide)

/-- A word of op 0 is determined by its low 12 bits. -/
theorem decodeWord_sys {nnn : BitVec 12} (hcls : nnn ≠ 0x0E0) (hret : nnn ≠ 0x0EE) :
    decodeWord (0x0#4 ++ nnn) = .ok (.sys nnn) := by
  have hcls' : 0x0#4 ++ nnn ≠ 0x00E0#16 := fun h => hcls ((nnnField_a 0 nnn).symm.trans (congrArg nnnField h))
  have hret' : 0x0#4 ++ nnn ≠ 0x00EE#16 := fun h => hret ((nnnField_a 0 nnn).symm.trans (congrArg nnnField h))
  simp [decodeWord, decodeOp0, hcls', hret']

/-- Settles O14: the form raises the fault of its own word, which is its address immediate. -/
theorem systemCallAlwaysFaults : Obligations.SystemCallAlwaysFaults :=
  fun nnn hcls hret => ⟨decodeWord_sys hcls hret, fun s =>
    zextAddr_eq_append nnn ▸ raise_spec (.unknownOpcode (zextAddr nnn)) s⟩

end Sys2Proof.Machine

/-! PROOFS. Registers and the ALU (41_alu.md): how a form that writes registers ends, then each form's word and what it
does in every state. -/

namespace Sys2Proof.Machine

theorem KeepsRegsBut.trans {xs ys : List RegIdx} {s t u : State} (h : KeepsRegsBut xs s t) (h' : KeepsRegsBut ys t u) :
    KeepsRegsBut (xs ++ ys) s u := by
  intro r hr
  rw [List.mem_append, not_or] at hr
  exact (h' r hr.2).trans (h r hr.1)

theorem setV_keeps (s : State) (x : RegIdx) (b : Byte) : KeepsAllBut [.regs] s (s.setV x b) := by
  simp [KeepsAllBut, Part.forall_iff, Part.same]

theorem setV_keepsRegs (s : State) (x : RegIdx) (b : Byte) : KeepsRegsBut [x] s (s.setV x b) :=
  fun _ hr => getV_setV_ne s x b (List.ne_of_not_mem_cons hr)

/-- Every form whose work writes registers only. -/
theorem registers_spec {i : Instr} {s u : State} {xs : List RegIdx} (h : exec i s = complete u)
    (hwork : KeepsAllBut [.regs] s u) (hregs : KeepsRegsBut xs s u) :
    ∃ t, exec i s = .next t ∧ (∀ r, t.getV r = u.getV r) ∧ KeepsRegsBut xs s t ∧ CountsOne s t ∧
      KeepsAllBut [.regs, .cycles] s t := by
  obtain ⟨t, ht, hcount, hkeeps, hafter⟩ := complete_spec hwork (by decide) (by decide)
  have hread : ∀ r, t.getV r = u.getV r := hafter .regs (by decide)
  exact ⟨t, h.trans ht, hread, fun r hr => (hread r).trans (hregs r hr), hcount, hkeeps⟩

/-- Every form that writes one register and no flag. -/
theorem write_spec {i : Instr} {s : State} {x : RegIdx} {b : Byte} (h : exec i s = complete (s.setV x b)) :
    ∃ t, exec i s = .next t ∧ t.getV x = b ∧ KeepsRegsBut [x] s t ∧ CountsOne s t ∧
      KeepsAllBut [.regs, .cycles] s t := by
  obtain ⟨t, ht, hread, hframe⟩ := registers_spec h (setV_keeps s x b) (setV_keepsRegs s x b)
  exact ⟨t, ht, (hread x).trans (getV_setV_same s x b), hframe⟩

/-- Every form that writes its result and then its flag: with `X = F` the flag is written over the result (R141). -/
theorem writeThenFlag_spec {i : Instr} {s : State} {x : RegIdx} {b f : Byte}
    (h : exec i s = complete ((s.setV x b).setV vfIdx f)) :
    ∃ t, exec i s = .next t ∧ (x ≠ 15 → t.getV x = b) ∧ t.getV 15 = f ∧ KeepsRegsBut [x, 15] s t ∧ CountsOne s t ∧
      KeepsAllBut [.regs, .cycles] s t := by
  have hwork : KeepsAllBut [.regs] s ((s.setV x b).setV vfIdx f) :=
    ((setV_keeps s x b).trans (setV_keeps _ vfIdx f)).mono (by decide)
  obtain ⟨t, ht, hread, hframe⟩ :=
    registers_spec h hwork ((setV_keepsRegs s x b).trans (setV_keepsRegs _ vfIdx f))
  have hresult : x ≠ 15 → t.getV x = b := fun hx => by rw [hread, getV_setV_ne _ vfIdx f hx, getV_setV_same]
  exact ⟨t, ht, hresult, (hread 15).trans (getV_setV_same _ vfIdx f), hframe⟩

/-- Settles O15: both forms write one register, with the immediate or with the other register's content. -/
theorem loadsWriteOneRegister : Obligations.LoadsWriteOneRegister :=
  fun _ => ⟨fun _ => ⟨by simp [decodeWord], fun _ => write_spec rfl⟩,
    fun _ => ⟨by simp [decodeWord, decodeOp8], fun _ => write_spec rfl⟩⟩

/-- Settles O16: the form writes the sum of `add8` into one register and drops its carry. -/
theorem addImmediateWrapsWithoutFlag : Obligations.AddImmediateWrapsWithoutFlag := by
  refine fun x nn => ⟨by simp [decodeWord], fun s => ?_⟩
  obtain ⟨t, ht, hsum, hframe⟩ := write_spec (i := .addImm x nn) (s := s) rfl
  exact ⟨t, ht, hsum ▸ add8_fst_toNat (s.getV x) nn, hframe⟩

theorem flagByte_carry (a b : Byte) : flagByte (add8 a b).2 = if a.toNat + b.toNat > 255 then 1 else 0 := by
  simp only [flagByte, add8_snd_iff]

theorem flagByte_not_borrow (a b : Byte) : flagByte (!(sub8 a b).2) = if a.toNat < b.toNat then 0 else 1 := by
  simp only [flagByte, Bool.not_eq_true', ← Bool.not_eq_true, sub8_snd_iff, ite_not]

/-- The difference modulo 256: the 256 that is borrowed only where needed may as well always be added. -/
theorem sub8_fst_toNat_mod (a b : Byte) : (sub8 a b).1.toNat = (a.toNat + 256 - b.toNat) % 256 := by
  have ha : a.toNat < 256 := a.isLt
  rw [sub8_fst_toNat]
  split <;> omega

/-- Settles O18: the sum of `add8` and then its carry. -/
theorem addCapturesCarry : Obligations.AddCapturesCarry := by
  refine fun x y => ⟨by simp [decodeWord, decodeOp8], fun s => ?_⟩
  obtain ⟨t, ht, hsum, hflag, hframe⟩ := writeThenFlag_spec (i := .addReg x y) (s := s) rfl
  exact ⟨t, ht, fun hx => hsum hx ▸ add8_fst_toNat (s.getV x) (s.getV y), hflag.trans (flagByte_carry _ _), hframe⟩

/-- Both subtractions, whichever register is taken from the other (R149, R151). -/
theorem subtract_spec {i : Instr} {s : State} {x : RegIdx} {a b : Byte}
    (h : exec i s = complete ((s.setV x (sub8 a b).1).setV vfIdx (flagByte (!(sub8 a b).2)))) :
    ∃ t, exec i s = .next t ∧ (x ≠ 15 → (t.getV x).toNat = (a.toNat + 256 - b.toNat) % 256) ∧
      t.getV 15 = (if a.toNat < b.toNat then 0 else 1) ∧ KeepsRegsBut [x, 15] s t ∧ CountsOne s t ∧
      KeepsAllBut [.regs, .cycles] s t := by
  obtain ⟨t, ht, hdiff, hflag, hframe⟩ := writeThenFlag_spec h
  exact ⟨t, ht, fun hx => hdiff hx ▸ sub8_fst_toNat_mod a b, hflag.trans (flagByte_not_borrow a b), hframe⟩

/-- Settles O19: VY is taken from VX. -/
theorem subtractCapturesNotBorrow : Obligations.SubtractCapturesNotBorrow :=
  fun _ _ => ⟨by simp [decodeWord, decodeOp8], fun _ => subtract_spec rfl⟩

/-- Settles O20: VX is taken from VY. -/
theorem reverseSubtractCapturesNotBorrow : Obligations.ReverseSubtractCapturesNotBorrow :=
  fun _ _ => ⟨by simp [decodeWord, decodeOp8], fun _ => subtract_spec rfl⟩

end Sys2Proof.Machine

/-! PROOFS. Index and memory (42_index_memory.md): how an instruction that raises after part of its work ends, what the
accesses to consecutive addresses leave behind, then each form's word and what it does in every state. -/

namespace Sys2Proof.Machine

theorem setI_keeps (s : State) (a : Word) : KeepsAllBut [.i] s (s.setI a) := by
  simp [KeepsAllBut, Part.forall_iff, Part.same]

theorem setRegs_keeps (s : State) (v : Vector Byte 16) : KeepsAllBut [.regs] s (s.setRegs v) := by
  simp [KeepsAllBut, Part.forall_iff, Part.same]

/-- Settles O24: the form writes the zero-extended immediate into I, whatever address that is. -/
theorem loadIndexImmediate : Obligations.LoadIndexImmediate := by
  refine fun nnn => ⟨by simp [decodeWord], fun s => ?_⟩
  obtain ⟨t, ht, hcount, hkeeps, hafter⟩ := complete_spec (setI_keeps s (zextAddr nnn)) (by decide) (by decide)
  have hi : t.i = zextAddr nnn := hafter .i (by decide)
  exact ⟨t, ht, hi ▸ zextAddr_toNat nnn, hcount, hkeeps⟩

/-- How an instruction ends that raises after the work that led from `s` to `u`: that work stays, and only the fault is
taken on top of it (42_index_memory.md R177). -/
theorem raise_after_spec {ps : List Part} {s u : State} (f : CpuFault) (hwork : KeepsAllBut ps s u)
    (hevents : .events ∉ ps) :
    ∃ t, raise f u = .next t ∧ TakesFault f s t ∧ KeepsAllBut (ps ++ [.run, .events]) s t ∧
      KeepsAllBut [.run, .events] u t := by
  have eevents : u.events = s.events := hwork .events hevents
  obtain ⟨t, ht, ⟨hrun, hreport⟩, hfault⟩ := raise_spec f u
  exact ⟨t, ht, ⟨hrun, eevents ▸ hreport⟩, hwork.trans hfault, hfault⟩

theorem KeepsMemOutside.of_reads {a n : Nat} {s t u : State} (h : KeepsMemOutside a n s u)
    (hread : ∀ k, t.byteAt k = u.byteAt k) : KeepsMemOutside a n s t :=
  fun k hk => (hread k).trans (h k hk)

/-! Stores. -/

/-- `storeBytes` as its effect on single bytes: those in memory are stored, the rest of memory is kept, and the end is a
fault exactly when some byte had no place. -/
theorem storeBytes_effect {bs : List Byte} (hbs : bs ≠ []) (a : Nat) (s : State) :
    ∃ u, storeBytes a bs s =
        (if a + bs.length ≤ s.cfg.memSize then .done u else .raised (.outOfBounds (max a s.cfg.memSize)) u) ∧
      (∀ j (hj : j < bs.length), a + j < s.cfg.memSize → u.byteAt (a + j) = bs[j]) ∧
      KeepsMemOutside a (min bs.length (s.cfg.memSize - a)) s u ∧ KeepsAllBut [.mem] s u := by
  obtain ⟨m, hflow, hbyte, -⟩ := storeBytes_spec bs a s
  refine ⟨s.setMem m, by simpa only [hbs, false_or] using hflow, fun j hj hin => ?_, fun k hk => ?_, setMem_keeps s m⟩
  · rw [hbyte, if_pos (by omega), Nat.add_sub_cancel_left, List.getD_eq_getElem _ _ hj]
  · rw [hbyte, if_neg (by omega)]

/-- Every form that stores bytes from I on (R176, R178), when they all have a place in memory. -/
theorem store_in_spec {i : Instr} {s : State} {bs : List Byte} (hbs : bs ≠ [])
    (h : exec i s = (storeBytes s.i.toNat bs s).finish) (hin : s.i.toNat + bs.length ≤ s.cfg.memSize) :
    ∃ t, exec i s = .next t ∧ (∀ j (hj : j < bs.length), t.byteAt (s.i.toNat + j) = bs[j]) ∧
      KeepsMemOutside s.i.toNat bs.length s t ∧ CountsOne s t ∧ KeepsAllBut [.mem, .cycles] s t := by
  obtain ⟨u, hflow, hstored, hout, hwork⟩ := storeBytes_effect hbs s.i.toNat s
  rw [hflow, if_pos hin] at h
  rw [Nat.min_eq_left (by omega)] at hout
  obtain ⟨t, ht, hcount, hkeeps, hafter⟩ := complete_spec hwork (by decide) (by decide)
  have hread : ∀ k, t.byteAt k = u.byteAt k := hafter .mem (by decide)
  exact ⟨t, h.trans ht, fun j hj => (hread _).trans (hstored j hj (by omega)), hout.of_reads hread, hcount, hkeeps⟩

/-- The same forms, when some byte has no place in memory. -/
theorem store_out_spec {i : Instr} {s : State} {bs : List Byte} (hbs : bs ≠ [])
    (h : exec i s = (storeBytes s.i.toNat bs s).finish) (hout : s.cfg.memSize < s.i.toNat + bs.length) :
    ∃ t, exec i s = .next t ∧ TakesFault (.outOfBounds (max s.i.toNat s.cfg.memSize)) s t ∧
      (∀ j (hj : j < bs.length), s.i.toNat + j < s.cfg.memSize → t.byteAt (s.i.toNat + j) = bs[j]) ∧
      KeepsMemOutside s.i.toNat (s.cfg.memSize - s.i.toNat) s t ∧ KeepsAllBut [.mem, .run, .events] s t := by
  obtain ⟨u, hflow, hstored, hrest, hwork⟩ := storeBytes_effect hbs s.i.toNat s
  rw [hflow, if_neg (by omega)] at h
  rw [Nat.min_eq_right (by omega)] at hrest
  obtain ⟨t, ht, hfault, hkeeps, hafter⟩ :=
    raise_after_spec (.outOfBounds (max s.i.toNat s.cfg.memSize)) hwork (by decide)
  have hread : ∀ k, t.byteAt k = u.byteAt k := hafter .mem (by decide)
  exact ⟨t, h.trans ht, hfault, fun j hj hin => (hread _).trans (hstored j hj hin), hrest.of_reads hread, hkeeps⟩

/-- Settles O26: the three digits are stored as three bytes are. -/
theorem decimalDigitsStored : Obligations.DecimalDigitsStored := by
  refine fun x => ⟨by simp [decodeWord, decodeOpF], fun s => ?_⟩
  obtain ⟨h, t, u, hdigits, hh, ht, hu⟩ := decimalDigits_spec (s.getV x)
  have hexec : exec (.ldBVx x) s = (storeBytes s.i.toNat [h, t, u] s).finish := hdigits ▸ rfl
  refine ⟨fun hin => ?_, fun hout => ?_⟩
  · obtain ⟨v, hv, hstored, hframe⟩ := store_in_spec (by simp) hexec hin
    exact ⟨v, hv, hstored 0 (by simp) ▸ hh, hstored 1 (by simp) ▸ ht, hstored 2 (by simp) ▸ hu, hframe⟩
  · obtain ⟨v, hv, hfault, hstored, hframe⟩ := store_out_spec (by simp) hexec (Nat.lt_succ_of_le hout)
    exact ⟨v, hv, hfault, fun h0 => hstored 0 (by simp) h0 ▸ hh, fun h1 => hstored 1 (by simp) h1 ▸ ht, hframe⟩

/-- Settles O27: byte `r` of the bytes stored is the content of register `r`. -/
theorem registersStored : Obligations.RegistersStored := by
  refine fun x => ⟨by simp [decodeWord, decodeOpF], fun s => ?_⟩
  have hlen : ((regsUpTo x).map s.getV).length = x.val + 1 := by rw [List.length_map, regsUpTo_length]
  have hbs : (regsUpTo x).map s.getV ≠ [] := List.ne_nil_of_length_eq_add_one hlen
  have hlt : ∀ r : RegIdx, r ≤ x → r.val < ((regsUpTo x).map s.getV).length :=
    fun r hr => hlen ▸ Nat.lt_succ_of_le hr
  have hget : ∀ (r : RegIdx) (hr : r ≤ x), ((regsUpTo x).map s.getV)[r.val]'(hlt r hr) = s.getV r :=
    fun r _ => by rw [List.getElem_map, regsUpTo_getElem]
  refine ⟨fun hin => ?_, fun hout => ?_⟩
  · obtain ⟨t, ht, hstored, hframe⟩ := store_in_spec (i := .storeRegs x) hbs rfl (hlen ▸ hin)
    exact ⟨t, ht, fun r hr => (hstored r.val (hlt r hr)).trans (hget r hr), hlen ▸ hframe⟩
  · obtain ⟨t, ht, hfault, hstored, hframe⟩ :=
      store_out_spec (i := .storeRegs x) hbs rfl (hlen ▸ Nat.lt_succ_of_le hout)
    exact ⟨t, ht, hfault, fun r hr h => (hstored r.val (hlt r hr) h).trans (hget r hr), hframe⟩

/-! Loads. -/

/-- `loadBytes` on V0 to VX as its effect on single registers: those whose bytes lie in memory are loaded, the others are
kept, and the end is a fault exactly when some byte does not exist. -/
theorem loadBytes_regsUpTo_effect (x : RegIdx) (a : Nat) (s : State) :
    ∃ u, loadBytes a (regsUpTo x) s =
        (if a + x.val < s.cfg.memSize then .done u else .raised (.outOfBounds (max a s.cfg.memSize)) u) ∧
      (∀ r : RegIdx, r ≤ x → a + r.val < s.cfg.memSize → u.getV r = s.byteAt (a + r.val)) ∧
      (∀ r : RegIdx, x < r ∨ s.cfg.memSize ≤ a + r.val → u.getV r = s.getV r) ∧ KeepsAllBut [.regs] s u := by
  obtain ⟨v, hflow, hloaded, hkept⟩ := loadBytes_spec (regsUpTo x) (regsUpTo_nodup x) a s
  have hne : regsUpTo x ≠ [] := List.ne_nil_of_length_eq_add_one (regsUpTo_length x)
  refine ⟨s.setRegs v, ?_, fun r hr hin => ?_, fun r hr => hkept r fun j hj e => ?_, setRegs_keeps s v⟩
  · simpa only [hne, false_or, regsUpTo_length, ← Nat.add_assoc, Nat.add_one_le_iff] using hflow
  · have hlt : r.val < (regsUpTo x).length := regsUpTo_length x ▸ Nat.lt_succ_of_le hr
    simpa only [regsUpTo_getElem] using hloaded r.val hlt hin
  · have hj' : j = r.val := by rw [← e, regsUpTo_getElem]
    have hrx : r ≤ x := (mem_regsUpTo x r).1 (e ▸ List.getElem_mem hj)
    exact hj' ▸ hr.resolve_left (Fin.not_lt.2 hrx)

/-- Settles O28: the loads' effect on the registers, completed or cut off by the fault. -/
theorem registersLoaded : Obligations.RegistersLoaded := by
  refine fun x => ⟨by simp [decodeWord, decodeOpF], fun s => ?_⟩
  obtain ⟨u, hflow, hloaded, hkept, hwork⟩ := loadBytes_regsUpTo_effect x s.i.toNat s
  have hexec : exec (.loadRegs x) s = (loadBytes s.i.toNat (regsUpTo x) s).finish := rfl
  refine ⟨fun hin => ?_, fun hout => ?_⟩
  · rw [hflow, if_pos hin] at hexec
    obtain ⟨t, ht, hcount, hkeeps, hafter⟩ := complete_spec hwork (by decide) (by decide)
    have hread : ∀ r, t.getV r = u.getV r := hafter .regs (by decide)
    refine ⟨t, hexec.trans ht, fun r hr => ?_, fun r hr => (hread r).trans (hkept r (.inl hr)), hcount, hkeeps⟩
    have hr' : r.val ≤ x.val := hr
    exact (hread r).trans (hloaded r hr (by omega))
  · rw [hflow, if_neg (Nat.not_lt.2 hout)] at hexec
    obtain ⟨t, ht, hfault, hkeeps, hafter⟩ :=
      raise_after_spec (.outOfBounds (max s.i.toNat s.cfg.memSize)) hwork (by decide)
    have hread : ∀ r, t.getV r = u.getV r := hafter .regs (by decide)
    exact ⟨t, hexec.trans ht, hfault, fun r hr hin => (hread r).trans (hloaded r hr hin),
      fun r hr => (hread r).trans (hkept r hr), hkeeps⟩

end Sys2Proof.Machine

/-! PROOFS. The display (43_display.md): the framebuffer primitives, then the clear instruction's word and what it
does in every state. -/

namespace Sys2Proof.Machine

/-- Settles O35: each primitive's own read law; the first clause is the definition of `fbRead`. -/
theorem framebufferPrimitives : Obligations.FramebufferPrimitives := by
  refine fun fb x y => ⟨fun _ _ => rfl, fun b x' y' => ?_, fbRead_fbReset x y⟩
  simp only [fbRead_fbWrite, sameCell, decide_eq_true_eq, eq_comm (a := x % 64), eq_comm (a := y % 32)]

theorem setFb_keeps (s : State) (fb : Framebuffer) : KeepsAllBut [.fb] s (s.setFb fb) := by
  simp [KeepsAllBut, Part.forall_iff, Part.same]

/-- Settles O31: the form's only work is to put the cleared framebuffer in place, in which every pixel reads 0. -/
theorem clearDisplay : Obligations.ClearDisplay := by
  refine ⟨by decide, fun s => ?_⟩
  obtain ⟨t, ht, hcount, hkeeps, hafter⟩ := complete_spec (setFb_keeps s fbReset) (by decide) (by decide)
  have hread : ∀ x y, fbRead t.fb x y = fbRead fbReset x y := hafter .fb (by decide)
  exact ⟨t, ht, fun x y => (hread x y).trans (fbRead_fbReset x y), hcount, hkeeps⟩

end Sys2Proof.Machine

/-! PROOFS. The keypad (44_keypad.md): a skip under a condition that is stated as a proposition, then the key skips'
words and what they do in every state. -/

namespace Sys2Proof.Machine

/-- `skip_spec` with its condition read as the proposition it decides. -/
theorem skip_spec_of_iff {i : Instr} {c : Bool} {P : Prop} {s : State} (h : exec i s = complete (skipIf c s))
    (hc : c = true ↔ P) :
    ∃ t, exec i s = .next t ∧ CountsOne s t ∧ KeepsAllBut [.pc, .cycles] s t ∧
      (P → t.pc = s.pc + 2) ∧ (¬ P → t.pc = s.pc) := by
  obtain ⟨t, ht, hcount, hkeeps, hpc⟩ := skip_spec h
  exact ⟨t, ht, hcount, hkeeps, fun hP => hpc.trans (if_pos (hc.2 hP)), fun hP => hpc.trans (if_neg (mt hc.1 hP))⟩

theorem not_keyMatches_iff (key : Option Key) (b : Byte) :
    (!keyMatches key b) = true ↔ ¬ ∃ k : Key, key = some k ∧ k.val = b.toNat := by
  rw [Bool.not_eq_true', ← Bool.not_eq_true, keyMatches_iff]

/-- Settles O36: EX9E skips on the match of `keyMatches` and EXA1 on its negation. -/
theorem keySkips : Obligations.KeySkips := by
  refine fun x => ⟨by simp [decodeWord, decodeOpE], by simp [decodeWord, decodeOpE], fun s => ⟨?_, ?_⟩⟩
  · exact skip_spec_of_iff rfl (keyMatches_iff s.key (s.getV x))
  · obtain ⟨t, ht, hcount, hkeeps, hskip, hstay⟩ :=
      skip_spec_of_iff (i := .sknp x) rfl (not_keyMatches_iff s.key (s.getV x))
    exact ⟨t, ht, hcount, hkeeps, fun hmatch => hstay (not_not_intro hmatch), hskip⟩

end Sys2Proof.Machine

/-! PROOFS. The delay timer (45_timers.md): its value and its reports after a number of ticks, then the words of FX07 and
FX15 and what they do in every state. -/

namespace Sys2Proof.Machine

theorem setDt_keeps (s : State) (a : Byte) : KeepsAllBut [.dt] s (s.setDt a) := by
  simp [KeepsAllBut, Part.forall_iff, Part.same]

/-- Ticks count the delay timer down and leave it at 0. -/
theorem ticks_dt (n : Nat) (s : State) : (ticks n s).dt.toNat = s.dt.toNat - n := by
  induction n generalizing s with
  | zero => rfl
  | succ n ih => rw [ticks, ih, tick_dt, Nat.sub_sub, Nat.add_comm]

/-- One tick reports the delay timer exactly when it finds it at 0 (R222). -/
theorem emitted_delayZero_tick {s : State} (hbound : s.cfg.delayCbBound = true) :
    emitted .delayZero (tick s) = emitted .delayZero s + (1 - s.dt.toNat) := by
  have hsound : List.count OutEvent.delayZero
      (if s.st = 0 ∧ s.cfg.soundCbBound = true then [.toneOff] else []) = 0 := by split <;> rfl
  have hdelay : List.count OutEvent.delayZero
      (if s.dt = 0 ∧ s.cfg.delayCbBound = true then [.delayZero] else []) = 1 - s.dt.toNat := by
    by_cases h : s.dt = 0
    · rw [if_pos ⟨h, hbound⟩, h]; rfl
    · have hpos : s.dt.toNat ≠ 0 := fun e => h (BitVec.eq_of_toNat_eq e)
      rw [if_neg fun hc => h hc.1, List.count_nil]
      omega
  rw [emitted, tick_events, List.count_append, List.count_append, hsound, hdelay, Nat.add_zero, emitted]

/-- The ticks that come after the delay timer has run down each report it. -/
theorem emitted_delayZero_ticks (n : Nat) {s : State} (hbound : s.cfg.delayCbBound = true) :
    emitted .delayZero (ticks n s) = emitted .delayZero s + (n - s.dt.toNat) := by
  induction n generalizing s with
  | zero => rw [ticks, Nat.zero_sub, Nat.add_zero]
  | succ n ih =>
    have hcfg : (tick s).cfg = s.cfg := tick_keeps s .cfg (by decide)
    rw [ticks, ih (hcfg ▸ hbound), emitted_delayZero_tick hbound, tick_dt]
    omega

/-- Settles O38: FX07 writes one register and FX15 the delay timer; the ticks that follow start from the value set and
from the events there were before. -/
theorem delayTimerReadAndSet : Obligations.DelayTimerReadAndSet := by
  refine fun x => ⟨by simp [decodeWord, decodeOpF], by simp [decodeWord, decodeOpF], fun s => ⟨write_spec rfl, ?_⟩⟩
  obtain ⟨t, ht, hcount, hkeeps, hafter⟩ := complete_spec (setDt_keeps s (s.getV x)) (by decide) (by decide)
  have hdt : t.dt = s.getV x := hafter .dt (by decide)
  have hcfg : t.cfg = s.cfg := hkeeps .cfg (by decide)
  have hevents : t.events = s.events := hkeeps .events (by decide)
  have hemitted : emitted .delayZero t = emitted .delayZero s := congrArg (List.count _) hevents
  refine ⟨t, ht, hdt, hcount, hkeeps, fun n => ⟨hdt ▸ ticks_dt n t, fun hbound => ?_⟩⟩
  rw [← hdt, ← hemitted]
  exact emitted_delayZero_ticks n (hcfg ▸ hbound)

end Sys2Proof.Machine

/-! PROOFS. Encoding (30_encoding.md): decoding is read off the top nibble group by group, the groups of op 0, 8, E and F
by a lemma each; from that the two round trips and the illegal words. -/

namespace Sys2Proof

/-- A well-formed `0NNN` is neither of the two words that are tried before it (R98). -/
theorem wf_sys_iff (nnn : BitVec 12) : (Instr.sys nnn).wf = true ↔ nnn ≠ 0x0E0 ∧ nnn ≠ 0x0EE := by
  simp [Instr.wf]

/-- Each form's word is read back by the fields of its format (R91). -/
theorem decodeWord_encode {i : Instr} (h : i.wf = true) : decodeWord (encode i) = .ok i := by
  cases i with
  | sys nnn =>
    obtain ⟨hcls, hret⟩ := (wf_sys_iff nnn).1 h
    exact Machine.decodeWord_sys hcls hret
  | cls | ret => rfl
  | jp | call | ldI | jpV0 => simp [encode, decodeWord]
  | seImm | sneImm | ldImm | addImm | rnd | seReg | sneReg | drw => simp [encode, decodeWord]
  | ldReg | orReg | andReg | xorReg | addReg | subReg | shrReg | subnReg | shlReg => simp [encode, decodeWord, decodeOp8]
  | skp | sknp => simp [encode, decodeWord, decodeOpE]
  | ldVxDT | ldVxK | ldDTVx | ldSTVx | addIVx | ldFVx | ldBVx | storeRegs | loadRegs =>
    simp [encode, decodeWord, decodeOpF]

/-- Settles O2: by the round trip of the word, which its two bytes make up. -/
theorem decodeInvertsEncode : Obligations.DecodeInvertsEncode := by
  refine fun i hwf => ⟨decodeWord_encode hwf, fun rest => ?_⟩
  simp only [encodeBytes, List.cons_append, List.nil_append, decode, wordOfBytes_hi_lo, decodeWord_encode hwf]

/-! A word that decodes is the word of what it decodes to. -/

theorem encode_decodeOp0 {w : Word} (hop : opField w = 0) : (decodeOp0 w).wf = true ∧ encode (decodeOp0 w) = w := by
  unfold decodeOp0
  split
  · exact ⟨rfl, by simp [encode, *]⟩
  · split
    · exact ⟨rfl, by simp [encode, *]⟩
    · rename_i hcls hret
      have hw : 0x0#4 ++ nnnField w = w := fields_a hop
      refine ⟨(wf_sys_iff _).2 ⟨fun h => hcls ?_, fun h => hret ?_⟩, hw⟩ <;> rw [← hw, h] <;> rfl

theorem encode_of_decodeOp8 {w : Word} {i : Instr} (hop : opField w = 8) (h : decodeOp8 w = .ok i) :
    i.wf = true ∧ encode i = w := by
  unfold decodeOp8 at h
  split at h <;> cases h <;> exact ⟨rfl, fields_rr hop ‹_›⟩

theorem encode_of_decodeOpE {w : Word} {i : Instr} (hop : opField w = 14) (h : decodeOpE w = .ok i) :
    i.wf = true ∧ encode i = w := by
  unfold decodeOpE at h
  split at h <;> cases h <;> exact ⟨rfl, fields_ri hop ‹_›⟩

theorem encode_of_decodeOpF {w : Word} {i : Instr} (hop : opField w = 15) (h : decodeOpF w = .ok i) :
    i.wf = true ∧ encode i = w := by
  unfold decodeOpF at h
  split at h <;> cases h <;> exact ⟨rfl, fields_ri hop ‹_›⟩

/-- Settles O3: group by group, the fields that were read make up the word again. -/
theorem encodeInvertsDecode : Obligations.EncodeInvertsDecode := by
  intro w i
  apply decodeWord_cases w (fun r => r = .ok i → i.wf = true ∧ encode i = w)
  case h0 => rintro hop ⟨⟩; exact encode_decodeOp0 hop
  case h8 => exact encode_of_decodeOp8
  case he => exact encode_of_decodeOpE
  case hf => exact encode_of_decodeOpF
  case h5 | h9 =>
    intro hop h
    split at h <;> cases h
    exact ⟨rfl, fields_rr hop ‹_›⟩
  case hd => rintro hop ⟨⟩; exact ⟨rfl, fields_rr hop rfl⟩
  case h1 | h2 | ha | hb => rintro hop ⟨⟩; exact ⟨rfl, fields_a hop⟩
  case h3 | h4 | h6 | h7 | hc => rintro hop ⟨⟩; exact ⟨rfl, fields_ri hop rfl⟩

/-! The illegal words. -/

theorem decodeOp8_error_iff (w : Word) (r : Reject) : decodeOp8 w = .error r ↔
    r = .illegal w ∧ fn4Field w ∈ [0x8#4, 0x9, 0xA, 0xB, 0xC, 0xD, 0xF] := by
  unfold decodeOp8
  rcases nibble_cases (fn4Field w) with e | e | e | e | e | e | e | e | e | e | e | e | e | e | e | e <;>
    simp [e, eq_comm]

theorem decodeOpE_error_iff (w : Word) (r : Reject) : decodeOpE w = .error r ↔
    r = .illegal w ∧ nnField w ∉ [0x9E#8, 0xA1] := by
  unfold decodeOpE
  split <;> simp_all [eq_comm]

theorem decodeOpF_error_iff (w : Word) (r : Reject) : decodeOpF w = .error r ↔
    r = .illegal w ∧ nnField w ∉ [0x07#8, 0x0A, 0x15, 0x18, 0x1E, 0x29, 0x33, 0x55, 0x65] := by
  unfold decodeOpF
  split <;> simp_all [eq_comm]

/-- The words that R97 lists. -/
def IllegalWord (w : Word) : Prop :=
  ((opField w = 0x5 ∨ opField w = 0x9) ∧ fn4Field w ≠ 0) ∨
  (opField w = 0x8 ∧ fn4Field w ∈ [0x8#4, 0x9, 0xA, 0xB, 0xC, 0xD, 0xF]) ∨
  (opField w = 0xE ∧ nnField w ∉ [0x9E#8, 0xA1]) ∨
  (opField w = 0xF ∧ nnField w ∉ [0x07#8, 0x0A, 0x15, 0x18, 0x1E, 0x29, 0x33, 0x55, 0x65])

theorem decodeWord_error_iff (w : Word) (r : Reject) : decodeWord w = .error r ↔ r = .illegal w ∧ IllegalWord w := by
  apply decodeWord_cases w (fun d => d = .error r ↔ r = .illegal w ∧ IllegalWord w)
  case h8 => intro hop; simp [decodeOp8_error_iff, IllegalWord, hop]
  case he => intro hop; simp [decodeOpE_error_iff, IllegalWord, hop]
  case hf => intro hop; simp [decodeOpF_error_iff, IllegalWord, hop]
  case h5 | h9 => intro hop; by_cases hn : fn4Field w = 0#4 <;> simp [IllegalWord, hop, hn, eq_comm]
  all_goals intro hop; simp [IllegalWord, hop]

/-- Settles O4: a rejection is the word itself, and the rejected words are those of the list. -/
theorem illegalWordsExactly : Obligations.IllegalWordsExactly := by
  refine fun w => ⟨fun r h => ((decodeWord_error_iff w r).1 h).1, fun ⟨r, h⟩ => ?_, fun h => ?_⟩
  · exact ((decodeWord_error_iff w r).1 h).2
  · exact ⟨.illegal w, (decodeWord_error_iff w _).2 ⟨rfl, h⟩⟩

/-- Settles O1: fifteen fixed words. -/
theorem sampleWordsDecode : Obligations.SampleWordsDecode := by
  unfold Obligations.SampleWordsDecode
  decide

end Sys2Proof

/-! PROOFS. The CPU's step (40_control_flow.md R120, 60_exceptions.md R248): how an instruction step ends, by what its
fetch and its decoding answer; from that every end of a step of the CPU. -/

namespace Sys2Proof.Machine

/-- The word does not lie in memory: the fault names the first byte that could not be read. -/
theorem instructionStep_out {s : State} (hout : s.cfg.memSize ≤ s.pc.toNat + 1) :
    instructionStep s = raise (.outOfBounds (max s.pc.toNat s.cfg.memSize)) (s.setStarted true) := by
  have hfetch : fetch (s.setStarted true) = .error (.outOfBounds (max s.pc.toNat s.cfg.memSize)) := fetch_out hout
  simp only [instructionStep, hfetch]

theorem instructionStep_illegal {s : State} {r : Reject} (hmem : s.pc.toNat + 1 < s.cfg.memSize)
    (hword : decodeWord (wordAtPc s) = .error r) :
    instructionStep s = raise (.unknownOpcode (wordAtPc s)) ((s.setStarted true).setPc (s.pc + 2)) := by
  have hfetch : fetch (s.setStarted true) = .ok (wordAtPc s, (s.setStarted true).setPc (s.pc + 2)) := fetch_in hmem
  simp only [instructionStep, hfetch, hword]

theorem instructionStep_decoded {s : State} {i : Instr} (hmem : s.pc.toNat + 1 < s.cfg.memSize)
    (hword : decodeWord (wordAtPc s) = .ok i) :
    instructionStep s = exec i ((s.setStarted true).setPc (s.pc + 2)) := by
  have hfetch : fetch (s.setStarted true) = .ok (wordAtPc s, (s.setStarted true).setPc (s.pc + 2)) := fetch_in hmem
  simp only [instructionStep, hfetch, hword]

/-- The work of a fetch that succeeds. -/
theorem fetched_keeps (s : State) : KeepsAllBut [.started, .pc] s ((s.setStarted true).setPc (s.pc + 2)) :=
  (setStarted_keeps s true).trans (setPc_keeps _ _)

/-- Every end of an instruction step: a fault before the instruction, after a part of the fetch's work or all of it, or
what the decoded instruction does. -/
theorem instructionStep_cases (s : State) :
    (∃ f pc, instructionStep s = raise f ((s.setStarted true).setPc pc)) ∨
    (∃ i, decodeWord (wordAtPc s) = .ok i ∧ instructionStep s = exec i ((s.setStarted true).setPc (s.pc + 2))) := by
  by_cases hmem : s.pc.toNat + 1 < s.cfg.memSize
  · cases hword : decodeWord (wordAtPc s) with
    | error r => exact .inl ⟨_, _, instructionStep_illegal hmem hword⟩
    | ok i => exact .inr ⟨i, rfl, instructionStep_decoded hmem hword⟩
  · exact .inl ⟨_, s.pc, instructionStep_out (Nat.not_lt.1 hmem)⟩

/-- A poll changes nothing without a latched key, and with key `k` it completes the waiting instruction (R214). -/
theorem pollStep_none {s : State} (h : s.key = none) : pollStep s = .next s := by simp only [pollStep, h]

theorem pollStep_some {s : State} {k : Key} (h : s.key = some k) :
    pollStep s = complete ((s.setV s.wait (keyByte k)).setRun .running) := by
  simp only [pollStep, h]

/-- Every end of a step of the CPU that has a next state. -/
theorem cpuStep_next_cases {s t : State} (h : cpuStep s = .next t) :
    (∃ f pc, t = enterFault f ((s.setStarted true).setPc pc)) ∨
    (∃ i, decodeWord (wordAtPc s) = .ok i ∧ exec i ((s.setStarted true).setPc (s.pc + 2)) = .next t) ∨
    t = s ∨ (∃ k, complete ((s.setV s.wait (keyByte k)).setRun .running) = .next t) ∨ t = s.setRun .stopped := by
  unfold cpuStep at h
  split at h
  case h_1 =>
    rcases instructionStep_cases s with ⟨f, pc, hraise⟩ | ⟨i, hword, hexec⟩
    · rw [hraise] at h
      cases h
      exact .inl ⟨f, pc, rfl⟩
    · exact .inr (.inl ⟨i, hword, hexec ▸ h⟩)
  case h_2 =>
    cases hkey : s.key with
    | none =>
      rw [pollStep_none hkey] at h
      cases h
      exact .inr (.inr (.inl rfl))
    | some k => exact .inr (.inr (.inr (.inl ⟨k, pollStep_some hkey ▸ h⟩)))
  case h_3 =>
    cases h
    exact .inr (.inr (.inr (.inr rfl)))
  case h_4 => cases h

/-- Settles O5: the step's own law. -/
theorem stepRunsDecodedInstruction : Obligations.StepRunsDecodedInstruction :=
  fun _ _ _ hturn hmem hword => step_eq_exec hturn hmem hword

/-- Settles O6: the fetch raises before PC is written. -/
theorem fetchFaultKeepsPc : Obligations.FetchFaultKeepsPc := by
  intro s u hturn hout
  have hfirst : (if u.pc.toNat < u.cfg.memSize then u.pc.toNat + 1 else u.pc.toNat) = max u.pc.toNat u.cfg.memSize := by
    split <;> omega
  rw [step_of_cpuMayRun hturn, instructionStep_out hout, hfirst]
  obtain ⟨t, ht, hfault, hkeeps, -⟩ := raise_after_spec (.outOfBounds _) (setStarted_keeps u true) (by decide)
  exact ⟨t, ht, hfault, hkeeps.mono (by decide)⟩

/-- Settles O7: an illegal word raises in the step itself, and `0NNN` raises its own word, which is the one at PC. -/
theorem unknownOpcodeHalts : Obligations.UnknownOpcodeHalts := by
  intro s u hturn hmem hword
  have hraise : step s = raise (.unknownOpcode (wordAtPc u)) ((u.setStarted true).setPc (u.pc + 2)) := by
    rcases hword with ⟨r, hr⟩ | ⟨nnn, hsys⟩
    · exact (step_of_cpuMayRun hturn).trans (instructionStep_illegal hmem hr)
    · have hself : zextAddr nnn = wordAtPc u := (zextAddr_eq_append nnn).trans (encodeInvertsDecode _ _ hsys).2
      exact hself ▸ step_eq_exec hturn hmem hsys
  obtain ⟨t, ht, hfault, hkeeps, hafter⟩ :=
    raise_after_spec (.unknownOpcode (wordAtPc u)) (fetched_keeps u) (by decide)
  exact ⟨t, hraise.trans ht, hfault, hafter .pc (by decide), hkeeps.mono (by decide)⟩

end Sys2Proof.Machine

/-! PROOFS. The remaining forms of the ALU (41_alu.md), and BNNN, FX1E and FX29: the values their results stand for, then
what each form does in every state. -/

namespace Sys2Proof.Machine

/-- `write_spec` with the result described bit by bit. -/
theorem write_bits_spec {i : Instr} {s : State} {x : RegIdx} {b : Byte} {bit : Nat → Bool}
    (h : exec i s = complete (s.setV x b)) (hbit : ∀ k, b.getLsbD k = bit k) :
    ∃ t, exec i s = .next t ∧ KeepsRegsBut [x] s t ∧ CountsOne s t ∧ KeepsAllBut [.regs, .cycles] s t ∧
      ∀ k, (t.getV x).getLsbD k = bit k := by
  obtain ⟨t, ht, hvalue, hregs, hcount, hkeeps⟩ := write_spec h
  exact ⟨t, ht, hregs, hcount, hkeeps, fun k => hvalue ▸ hbit k⟩

/-- Settles O17: each form writes one register with the bitwise operation's value. -/
theorem logicIsBitwiseWithoutFlag : Obligations.LogicIsBitwiseWithoutFlag :=
  fun _ _ _ => ⟨write_bits_spec rfl fun _ => BitVec.getLsbD_or, write_bits_spec rfl fun _ => BitVec.getLsbD_and,
    write_bits_spec rfl fun _ => BitVec.getLsbD_xor⟩

/-- Every form that writes its flag and then its result in place: with `X = F` the result is made of the flag just
written (R141, R156). -/
theorem flagThenWrite_spec {i : Instr} {s : State} {x : RegIdx} {f : Byte} {g : Byte → Byte}
    (h : exec i s = complete ((s.setV vfIdx f).setV x (g ((s.setV vfIdx f).getV x)))) :
    ∃ t, exec i s = .next t ∧ (x ≠ 15 → t.getV x = g (s.getV x) ∧ t.getV 15 = f) ∧ (x = 15 → t.getV 15 = g f) ∧
      KeepsRegsBut [x, 15] s t ∧ CountsOne s t ∧ KeepsAllBut [.regs, .cycles] s t := by
  have hwork := ((setV_keeps s vfIdx f).trans (setV_keeps _ x (g ((s.setV vfIdx f).getV x)))).mono
    (qs := [.regs]) (by decide)
  have hregs := (setV_keepsRegs s vfIdx f).trans (setV_keepsRegs _ x (g ((s.setV vfIdx f).getV x)))
  obtain ⟨t, ht, hread, hframe, hrest⟩ := registers_spec h hwork hregs
  refine ⟨t, ht, fun hx => ⟨?_, ?_⟩, fun hx => ?_, fun r hr => hframe r (by simpa [vfIdx, and_comm] using hr), hrest⟩
  · rw [hread, getV_setV_same, getV_setV_ne _ vfIdx f hx]
  · rw [hread, getV_setV_ne _ x _ (Ne.symm hx)]
    exact getV_setV_same s vfIdx f
  · subst hx
    rw [hread, getV_setV_same]
    exact congrArg g (getV_setV_same s vfIdx f)

@[simp] theorem lowBit_toNat (a : Byte) : (lowBit a).toNat = a.toNat % 2 := by
  simp [lowBit, Nat.and_one_is_mod]

@[simp] theorem highBit_toNat (a : Byte) : (highBit a).toNat = a.toNat / 128 := by
  have ha : a.toNat < 256 := a.isLt
  have hbit : a.toNat / 128 < 2 := Nat.div_lt_of_lt_mul ha
  simp [highBit, Nat.shiftRight_eq_div_pow, Nat.and_one_is_mod, Nat.mod_eq_of_lt hbit]

@[simp] theorem shiftRight1_toNat (a : Byte) : (shiftRight1 a).toNat = a.toNat / 2 := by
  simp [shiftRight1, Nat.shiftRight_eq_div_pow]

@[simp] theorem shiftLeft1_toNat (a : Byte) : (shiftLeft1 a).toNat = 2 * a.toNat % 256 := by
  simp [shiftLeft1, Nat.shiftLeft_eq, Nat.mul_comm]

/-- Settles O21: bit 0 is the flag; with `X = F` it is shifted out. -/
theorem shiftRightCapturesLowBit : Obligations.ShiftRightCapturesLowBit := by
  intro x y s
  obtain ⟨t, ht, hother, hvf, hframe⟩ := flagThenWrite_spec (i := .shrReg x y) (s := s) (g := shiftRight1) rfl
  refine ⟨t, ht, fun hx => ?_, fun hx => ?_, hframe⟩
  · obtain ⟨hresult, hflag⟩ := hother hx
    simp [hresult, hflag]
  · apply BitVec.eq_of_toNat_eq
    rw [hvf hx, shiftRight1_toNat, lowBit_toNat, Nat.div_eq_of_lt (Nat.mod_lt _ Nat.two_pos)]
    rfl

/-- Settles O22: bit 7 is the flag; with `X = F` it is shifted to bit 1. -/
theorem shiftLeftCapturesHighBit : Obligations.ShiftLeftCapturesHighBit := by
  intro x y s
  obtain ⟨t, ht, hother, hvf, hframe⟩ := flagThenWrite_spec (i := .shlReg x y) (s := s) (g := shiftLeft1) rfl
  refine ⟨t, ht, fun hx => ?_, fun hx => ?_, hframe⟩
  · obtain ⟨hresult, hflag⟩ := hother hx
    simp [hresult, hflag]
  · subst hx
    have hlt : (s.getV 15).toNat < 256 := (s.getV 15).isLt
    rw [hvf rfl, shiftLeft1_toNat, highBit_toNat]
    omega

theorem setDraws_keeps (s : State) (n : Nat) : KeepsAllBut [.draws] s (s.setDraws n) := by
  simp [KeepsAllBut, Part.forall_iff, Part.same]

/-- Settles O23: the one draw counts itself, and then one register is written with the masked byte. -/
theorem randomIsOneMaskedDraw : Obligations.RandomIsOneMaskedDraw := by
  intro x nn s
  have hwork := (setDraws_keeps s (s.draws + 1)).trans (setV_keeps _ x (nn &&& Config.randByte s.draws))
  obtain ⟨t, ht, hcount, hkeeps, hafter⟩ := complete_spec hwork (by decide) (by decide)
  have hread := hafter .regs (by decide)
  refine ⟨t, ht, fun k => ?_, hafter .draws (by decide), fun r hr => ?_, hcount, hkeeps.mono (by decide)⟩
  · rw [hread x, getV_setV_same, BitVec.getLsbD_and]
  · exact (hread r).trans (setV_keepsRegs _ x _ r hr)

@[simp] theorem zext16_toNat (b : Byte) : (zext16 b).toNat = b.toNat := by
  have hb : b.toNat < 256 := b.isLt
  rw [zext16, BitVec.toNat_setWidth]
  omega

/-- Settles O13: a byte and a 12-bit address do not pass 16 bits, so the sum is exact. -/
theorem offsetJumpAddsV0 : Obligations.OffsetJumpAddsV0 := by
  intro nnn s
  have hv : (s.getV 0).toNat < 256 := (s.getV 0).isLt
  have hn : nnn.toNat < 4096 := nnn.isLt
  have hsum : (add16 (zext16 (s.getV v0Idx)) (zextAddr nnn)).toNat = (s.getV 0).toNat + nnn.toNat := by
    rw [add16_toNat, zext16_toNat, zextAddr_toNat]
    exact Nat.mod_eq_of_lt (by omega)
  obtain ⟨t, ht, hcount, hkeeps, hafter⟩ := complete_spec (setPc_keeps s _) (by decide) (by decide)
  have hpc : t.pc = add16 (zext16 (s.getV v0Idx)) (zextAddr nnn) := hafter .pc (by decide)
  exact ⟨t, ht, hpc ▸ hsum, hcount, hkeeps⟩

/-- Every form whose work writes I only (R170). -/
theorem index_spec {i : Instr} {s : State} {a : Word} (h : exec i s = complete (s.setI a)) :
    ∃ t, exec i s = .next t ∧ t.i = a ∧ CountsOne s t ∧ KeepsAllBut [.i, .cycles] s t := by
  obtain ⟨t, ht, hcount, hkeeps, hafter⟩ := complete_spec (setI_keeps s a) (by decide) (by decide)
  exact ⟨t, h.trans ht, hafter .i (by decide), hcount, hkeeps⟩

theorem glyphAddr_toNat (b : Byte) : (glyphAddr b).toNat = b.toNat * 5 := by
  have hb : b.toNat < 256 := b.isLt
  exact (BitVec.toNat_ofNat _ _).trans (Nat.mod_eq_of_lt (by omega))

/-- Settles O25: both forms write I, with the sum of `add16` or with the glyph's address. -/
theorem indexArithmetic : Obligations.IndexArithmetic := by
  refine fun x s => ⟨?_, ?_⟩
  · obtain ⟨t, ht, hi, hframe⟩ := index_spec (i := .addIVx x) (s := s) rfl
    exact ⟨t, ht, by rw [hi, add16_toNat, zext16_toNat], hframe⟩
  · obtain ⟨t, ht, hi, hframe⟩ := index_spec (i := .ldFVx x) (s := s) rfl
    exact ⟨t, ht, hi ▸ glyphAddr_toNat (s.getV x), hframe⟩

end Sys2Proof.Machine

/-! PROOFS. Stores read back, by FX65 and by the fetch (42_index_memory.md section 3, 20_memory.md section 5). -/

namespace Sys2Proof.Machine

/-- Settles O29: what FX55 stored is what FX65 loads, from a memory that reads the same. -/
theorem storeThenLoadGivesBack : Obligations.StoreThenLoadGivesBack := by
  intro x s hin
  obtain ⟨t, ht, hstored, -, -, hkeeps⟩ := ((registersStored x).2 s).1 hin
  have ecfg : t.cfg = s.cfg := hkeeps .cfg (by decide)
  have ei : t.i = s.i := hkeeps .i (by decide)
  refine ⟨t, ht, fun t' hcfg hi hmem => ?_⟩
  rw [ecfg] at hcfg
  rw [ei] at hi
  obtain ⟨u, hu, hloaded, -⟩ := ((registersLoaded x).2 t').1 (by rwa [hi, hcfg])
  refine ⟨u, hu, fun r hr => ?_⟩
  rw [hloaded r hr, hi, hmem, hstored r hr]

/-- A fetch reads memory, and there is no copy of it that it could read instead (R72). -/
theorem fetchReadsMemoryOf (t : State) : FetchReadsMemoryOf t := by
  intro u _ hmem hin
  rw [fetch_in hin, wordAtPc, hmem, hmem]

/-- Settles O30: the memory after each store is the one O26 and O27 describe, and any fetch reads it. -/
theorem storeSeenByNextFetch : Obligations.StoreSeenByNextFetch := by
  refine fun x s => ⟨fun hin => ?_, fun hin => ?_⟩
  · obtain ⟨t, ht, hstored, hout, -, hkeeps⟩ := ((registersStored x).2 s).1 hin
    exact ⟨t, ht, hkeeps .pc (by decide), hstored, hout, fetchReadsMemoryOf t⟩
  · obtain ⟨t, ht, hhundreds, htens, hunits, hout, -, hkeeps⟩ := ((decimalDigitsStored x).2 s).1 hin
    exact ⟨t, ht, hkeeps .pc (by decide), hhundreds, htens, hunits, hout, fetchReadsMemoryOf t⟩

end Sys2Proof.Machine

/-! PROOFS. Draws (43_display.md R195 to R199): DXYN when its sprite lies in memory and when it does not, and a second
draw of the same sprite. -/

namespace Sys2Proof.Machine

/-- Settles O32: all rows lie in memory, so the draw is the one of the whole sprite, and VF is its collision. -/
theorem drawXorsAndReportsCollision : Obligations.DrawXorsAndReportsCollision := by
  intro x y n s hin
  obtain ⟨fb, hit, hcovered, hother, hhit, hexec⟩ := execDrw_spec x y n s
  have hrows : min n.val (s.cfg.memSize - s.i.toNat) = n.val := by omega
  rw [hrows] at hcovered hother hhit
  rw [if_pos hin] at hexec
  obtain ⟨t, ht, hcount, hkeeps, hafter⟩ :=
    complete_spec ((setFb_keeps s fb).trans (setV_keeps _ vfIdx (flagByte hit))) (by decide) (by decide)
  have hread : ∀ a b, fbRead t.fb a b = fbRead fb a b := hafter .fb (by decide)
  have hreg := hafter .regs (by decide)
  have hvf : t.getV 15 = flagByte hit := (hreg 15).trans (getV_setV_same _ vfIdx _)
  refine ⟨t, hexec.trans ht, fun a b h => (hread a b).trans (hcovered a b h),
    fun a b h => (hread a b).trans (hother a b h), fun h => ?_, fun h => ?_,
    fun r hr => (hreg r).trans (setV_keepsRegs _ vfIdx _ r hr), hcount, hkeeps.mono (by decide)⟩
  · rw [hvf, hhit.2 h]
    rfl
  · rw [hvf, Bool.eq_false_iff.2 (mt hhit.1 h)]
    rfl

/-- Settles O33: the rows that lie in memory are those before the fault. -/
theorem drawOutOfBoundsKeepsRowsBefore : Obligations.DrawOutOfBoundsKeepsRowsBefore := by
  intro x y n s hn hout
  obtain ⟨fb, _, hcovered, hother, -, hexec⟩ := execDrw_spec x y n s
  have hrows : min n.val (s.cfg.memSize - s.i.toNat) = s.cfg.memSize - s.i.toNat := by omega
  rw [hrows] at hcovered hother
  rw [if_neg (by omega)] at hexec
  obtain ⟨t, ht, hfault, hkeeps, hafter⟩ :=
    raise_after_spec (.outOfBounds (max s.i.toNat s.cfg.memSize)) (setFb_keeps s fb) (by decide)
  have hread : ∀ a b, fbRead t.fb a b = fbRead fb a b := hafter .fb (by decide)
  exact ⟨t, hexec.trans ht, hfault, fun a b h => (hread a b).trans (hcovered a b h),
    fun a b h => (hread a b).trans (hother a b h), hkeeps⟩

/-- The sprite is a matter of memory and I. -/
theorem spriteBitSet_congr {s t : State} (hi : t.i = s.i) (hmem : ∀ a, t.byteAt a = s.byteAt a) :
    SpriteBitSet t = SpriteBitSet s := by
  funext r c
  rw [SpriteBitSet, SpriteBitSet, hi, hmem]

theorem spriteCovers_congr {s t : State} (h : SpriteBitSet t = SpriteBitSet s) : SpriteCovers t = SpriteCovers s := by
  unfold SpriteCovers
  rw [h]

/-- A set bit of a sprite covers the pixel it lands on. -/
theorem spriteCovers_of_bit {s : State} {x0 y0 n r c : Nat} (hr : r < n) (hc : c < 8) (h : SpriteBitSet s r c) :
    SpriteCovers s x0 y0 n (x0 + c) (y0 + r) :=
  ⟨r, c, hr, hc, h, rfl, rfl⟩

/-- Once the pixels a sprite covers are inverted, it collides where it met an unset pixel before. -/
theorem spriteCollides_after {s t : State} {x0 y0 n : Nat} (hsprite : SpriteBitSet t = SpriteBitSet s)
    (hcovered : ∀ a b, SpriteCovers s x0 y0 n a b → fbRead t.fb a b = !fbRead s.fb a b) :
    SpriteCollides t x0 y0 n ↔
      ∃ r c, r < n ∧ c < 8 ∧ SpriteBitSet s r c ∧ fbRead s.fb (x0 + c) (y0 + r) = false := by
  unfold SpriteCollides
  rw [hsprite]
  refine exists_congr fun r => exists_congr fun c => and_congr_right fun hr => and_congr_right fun hc =>
    and_congr_right fun hbit => ?_
  rw [hcovered _ _ (spriteCovers_of_bit hr hc hbit), Bool.not_eq_true']

/-- Settles O34: the second draw is again a draw of the same sprite at the same place, on the framebuffer of the first. -/
theorem drawTwiceRestores : Obligations.DrawTwiceRestores := by
  intro x y x' y' n s hin
  obtain ⟨t, ht, hcovered, hother, -, -, -, -, hkeeps⟩ := drawXorsAndReportsCollision x y n s hin
  refine ⟨t, ht, fun hx hy => ?_⟩
  have hcfg : t.cfg = s.cfg := hkeeps .cfg (by decide)
  have hi : t.i = s.i := hkeeps .i (by decide)
  have hsprite := spriteBitSet_congr hi (hkeeps .mem (by decide))
  obtain ⟨u, hu, hcovered', hother', hhit, hmiss, -⟩ := drawXorsAndReportsCollision x' y' n t (by rwa [hi, hcfg])
  rw [hx, hy, spriteCovers_congr hsprite] at hcovered' hother'
  rw [hx, hy, spriteCollides_after hsprite hcovered] at hhit hmiss
  refine ⟨u, hu, hhit, hmiss, fun a b => ?_⟩
  by_cases hab : SpriteCovers s (s.getV x).toNat (s.getV y).toNat n.val a b
  · rw [hcovered' a b hab, hcovered a b hab, Bool.not_not]
  · rw [hother' a b hab, hother a b hab]

end Sys2Proof.Machine

/-! PROOFS. The key wait (44_keypad.md R214): what FX0A opens, and what each poll does. -/

namespace Sys2Proof.Machine

theorem setRun_keeps (s : State) (r : RunState) : KeepsAllBut [.run] s (s.setRun r) := by
  simp [KeepsAllBut, Part.forall_iff, Part.same]

theorem setWait_keeps (s : State) (x : RegIdx) : KeepsAllBut [.wait] s (s.setWait x) := by
  simp [KeepsAllBut, Part.forall_iff, Part.same]

theorem keyByte_toNat (k : Key) : (keyByte k).toNat = k.val :=
  (BitVec.toNat_ofNat _ _).trans (Nat.mod_eq_of_lt (Nat.lt_trans k.isLt (by decide)))

/-- A poll that finds key `k` completes the waiting instruction. -/
theorem pollStep_some_spec {s : State} {k : Key} (h : s.key = some k) :
    ∃ t, pollStep s = .next t ∧ (t.getV s.wait).toNat = k.val ∧ KeepsRegsBut [s.wait] s t ∧ t.run = .running ∧
      CountsOne s t ∧ KeepsAllBut [.regs, .run, .cycles] s t := by
  have hwork := (setV_keeps s s.wait (keyByte k)).trans (setRun_keeps _ .running)
  obtain ⟨t, ht, hcount, hkeeps, hafter⟩ := complete_spec hwork (by decide) (by decide)
  have hread : ∀ r, t.getV r = (s.setV s.wait (keyByte k)).getV r := hafter .regs (by decide)
  refine ⟨t, (pollStep_some h).trans ht, ?_, fun r hr => (hread r).trans (setV_keepsRegs s s.wait _ r hr),
    hafter .run (by decide), hcount, hkeeps⟩
  rw [hread, getV_setV_same, keyByte_toNat]

/-- Settles O37: the wait is opened by two writes, and the CPU's step in it is the poll. -/
theorem keyWaitCompletesOnKey : Obligations.KeyWaitCompletesOnKey := by
  refine ⟨fun x s => ⟨_, rfl, rfl, rfl, (setRun_keeps s .waitKey).trans (setWait_keeps _ x)⟩,
    fun s u hturn hrun hpause hstop => ?_⟩
  have hpoll := step_of_poll hturn hrun hpause hstop
  exact ⟨fun hkey => hpoll.trans (pollStep_none hkey), fun k hkey => hpoll ▸ pollStep_some_spec hkey⟩

end Sys2Proof.Machine

/-! PROOFS. The sound timer and the tick (45_timers.md R222, R229), with the sound timer's laws as for the delay timer. -/

namespace Sys2Proof.Machine

theorem setSt_keeps (s : State) (a : Byte) : KeepsAllBut [.st] s (s.setSt a) := by
  simp [KeepsAllBut, Part.forall_iff, Part.same]

theorem emit_keeps (s : State) (e : OutEvent) : KeepsAllBut [.events] s (s.emit e) := by
  simp [KeepsAllBut, Part.forall_iff, Part.same]

/-- Ticks count the sound timer down and leave it at 0. -/
theorem ticks_st (n : Nat) (s : State) : (ticks n s).st.toNat = s.st.toNat - n := by
  induction n generalizing s with
  | zero => rfl
  | succ n ih => rw [ticks, ih, tick_st, Nat.sub_sub, Nat.add_comm]

/-- One tick reports the sound timer exactly when it finds it at 0 (R222). -/
theorem emitted_toneOff_tick {s : State} (hbound : s.cfg.soundCbBound = true) :
    emitted .toneOff (tick s) = emitted .toneOff s + (1 - s.st.toNat) := by
  have hdelay : List.count OutEvent.toneOff
      (if s.dt = 0 ∧ s.cfg.delayCbBound = true then [.delayZero] else []) = 0 := by split <;> rfl
  have hsound : List.count OutEvent.toneOff
      (if s.st = 0 ∧ s.cfg.soundCbBound = true then [.toneOff] else []) = 1 - s.st.toNat := by
    by_cases h : s.st = 0
    · rw [if_pos ⟨h, hbound⟩, h]; rfl
    · have hpos : s.st.toNat ≠ 0 := fun e => h (BitVec.eq_of_toNat_eq e)
      rw [if_neg fun hc => h hc.1, List.count_nil]
      omega
  rw [emitted, tick_events, List.count_append, List.count_append, hdelay, hsound, Nat.zero_add, emitted]

/-- The ticks that come after the sound timer has run down each report it. -/
theorem emitted_toneOff_ticks (n : Nat) {s : State} (hbound : s.cfg.soundCbBound = true) :
    emitted .toneOff (ticks n s) = emitted .toneOff s + (n - s.st.toNat) := by
  induction n generalizing s with
  | zero => rw [ticks, Nat.zero_sub, Nat.add_zero]
  | succ n ih =>
    have hcfg : (tick s).cfg = s.cfg := tick_keeps s .cfg (by decide)
    rw [ticks, ih (hcfg ▸ hbound), emitted_toneOff_tick hbound, tick_st]
    omega

theorem setSound_keeps (b : Byte) (s : State) : KeepsAllBut [.st, .events] s (setSound b s) :=
  (setSt_keeps s b).trans (emit_keeps _ .toneOn)

theorem setSound_st (b : Byte) (s : State) : (setSound b s).st = b := by simp [setSound]

theorem setSound_events (b : Byte) (s : State) :
    (setSound b s).events = if s.cfg.soundCbBound then s.events ++ [.toneOn] else s.events :=
  emit_events (s.setSt b) .toneOn

theorem emitted_toneOff_setSound (b : Byte) (s : State) : emitted .toneOff (setSound b s) = emitted .toneOff s := by
  rw [emitted, setSound_events]
  split
  · exact List.count_append.trans (Nat.add_zero _)
  · rfl

/-- Settles O39: FX18's work is `setSound`; the ticks that follow start from the value set, and tone_on is none of the
events they report. -/
theorem soundTimerSet : Obligations.SoundTimerSet := by
  refine fun x => ⟨by simp [decodeWord, decodeOpF], fun s => ?_⟩
  obtain ⟨t, ht, hcount, hkeeps, hafter⟩ := complete_spec (setSound_keeps (s.getV x) s) (by decide) (by decide)
  have hst : t.st = s.getV x := (hafter .st (by decide)).trans (setSound_st _ s)
  have hevents : t.events = (setSound (s.getV x) s).events := hafter .events (by decide)
  have hcfg : t.cfg = s.cfg := hkeeps .cfg (by decide)
  have hemitted : emitted .toneOff t = emitted .toneOff s :=
    (congrArg (List.count _) hevents).trans (emitted_toneOff_setSound _ s)
  refine ⟨t, ht, hst, hevents.trans (setSound_events _ s), hcount, hkeeps,
    fun n => ⟨hst ▸ ticks_st n t, fun hbound => ?_⟩⟩
  rw [← hst, ← hemitted]
  exact emitted_toneOff_ticks n (hcfg ▸ hbound)

/-- Settles O40: the turn is one tick. -/
theorem tickTurn : Obligations.TickTurn := by
  intro s u hdue
  refine ⟨tick u, step_of_turnDue hdue, tick_dt u, tick_st u, ?_, tick_keeps u⟩
  rw [tick_events, List.append_assoc]

end Sys2Proof.Machine

/-! PROOFS. Run control (60_exceptions.md R245, R252, R253, R261): what a turn of the CPU answers when it has no enabled
step, and the three states in which it has none. -/

namespace Sys2Proof.Machine

/-- Taking a turn leaves everything but the turns as it is. -/
theorem TurnDue.keepsAllBut {s u : State} {turn : Turn} (h : TurnDue s turn u) :
    KeepsAllBut [.agenda, .schedule] s u := by
  obtain ⟨agenda, schedule, rfl⟩ := h.keeps
  simp [KeepsAllBut, Part.forall_iff, Part.same]

/-- The CPU's enabled step is a matter of RUN and the two levels. -/
theorem TurnDue.cpuMove_eq {s u : State} {turn : Turn} (h : TurnDue s turn u) : cpuMove u = cpuMove s := by
  obtain ⟨agenda, schedule, rfl⟩ := h.keeps
  rfl

theorem step_of_idle_alone {s : State} {why : Fault} (halone : CpuAlone s) (hidle : cpuMove s = .idle why) :
    step s = .fault why := by
  rw [step_of_cpuAlone halone, cpuStep, hidle]

theorem step_of_idle_due {s u : State} {why : Fault} (hdue : TurnDue s .cpu u) (hidle : cpuMove s = .idle why) :
    step s = .next u := by
  rw [step_of_turnDue hdue, takeTurn, cpuTurn, hdue.cpuMove_eq, hidle]

theorem cpuMove_halted {s : State} {f : CpuFault} (h : s.run = .halted f) : cpuMove s = .idle (.cpuHalted f) := by
  rw [cpuMove, h]

theorem cpuMove_stopped {s : State} (h : s.run = .stopped) : cpuMove s = .idle .cpuStopped := by
  rw [cpuMove, h]

theorem cpuMove_paused {s : State} (hrun : s.run = .running ∨ s.run = .waitKey) (hpause : s.pause = true)
    (hstop : s.stop = false) : cpuMove s = .idle .cpuHeld := by
  rcases hrun with hrun | hrun <;> simp [cpuMove, hrun, hpause, hstop]

/-- Settles O41: the raise's own law, and a halted CPU is idle. -/
theorem faultEntryHalts : Obligations.FaultEntryHalts := by
  intro f s
  obtain ⟨t, ht, ⟨hhalted, hreport⟩, hkeeps⟩ := raise_spec f s
  have hidle : ∀ u : State, u.run = t.run → cpuMove u = .idle (.cpuHalted f) :=
    fun u hrun => cpuMove_halted (hrun.trans hhalted)
  exact ⟨t, ht, ⟨hhalted, hreport⟩, hkeeps, fun u hrun halone => step_of_idle_alone halone (hidle u hrun),
    fun u v hrun hdue => step_of_idle_due hdue (hidle u hrun)⟩

/-- Settles O42: the transition writes RUN alone, and a stopped CPU is idle. -/
theorem stopTransition : Obligations.StopTransition := by
  refine ⟨fun s u hturn hstop hrun => ?_, fun s hrun halone => step_of_idle_alone halone (cpuMove_stopped hrun),
    fun s u hrun hdue => step_of_idle_due hdue (cpuMove_stopped hrun)⟩
  exact ⟨u.setRun .stopped, step_of_stop hturn hstop hrun, rfl, (setRun_keeps u .stopped).mono (by decide),
    fun _ _ _ => rfl, fun _ _ _ => rfl⟩

theorem setPause_keeps (s : State) (b : Bool) : KeepsAllBut [.pause] s (s.setPause b) := by
  simp [KeepsAllBut, Part.forall_iff, Part.same]

/-- Settles O43: a paused CPU is idle, and the turn that lowers the level writes nothing else. -/
theorem pauseHoldsCpu : Obligations.PauseHoldsCpu := by
  intro s hrun hpause hstop
  have hidle := cpuMove_paused hrun hpause hstop
  exact ⟨fun u hdue => step_of_idle_due hdue hidle, fun halone => step_of_idle_alone halone hidle,
    fun u hdue => ⟨u.setPause false, step_of_turnDue hdue, rfl, setPause_keeps u false⟩⟩

end Sys2Proof.Machine

/-! PROOFS. The host's turns (60_exceptions.md R263, 70_reset_and_hazards.md R280, R283, 44_keypad.md R210): each is its
operation on the state with the turn taken, and the two that a duty limits are refused outside it. -/

namespace Sys2Proof.Machine

theorem step_of_hostTurn {s u : State} {op : HostOp} (h : TurnDue s (.host op) u) : step s = hostStep op u :=
  step_of_turnDue h

theorem runEnded_iff (s : State) : runEnded s = true ↔ (∃ f, s.run = .halted f) ∨ s.run = .stopped := by
  unfold runEnded
  split <;> simp [*]

theorem runEnded_eq_false {s : State} (h : s.run = .running ∨ s.run = .waitKey) : runEnded s = false := by
  rcases h with h | h <;> simp [runEnded, h]

/-- The host's reset leaves the parameters, `pause` and the model's own outputs and inputs as they are. -/
theorem hostReset_keeps (s : State) : KeepsAllBut
    [.regs, .i, .pc, .stack, .mem, .fb, .dt, .st, .key, .cycles, .run, .wait, .stop, .started] s (hostReset s) := by
  simp [KeepsAllBut, Part.forall_iff, Part.same]

theorem getV_reset (r : RegIdx) : State.reset.getV r = 0 := Vector.getElem_replicate _

theorem fbRead_reset (x y : Nat) : fbRead State.reset.fb x y = false := fbRead_fbReset x y

theorem resetByte_font (c : Config) {a : Nat} (h : a < 80) : Memory.resetByte c a = c.font[a] := dif_pos h

/-- The memory after the host's reset lists no cell, so each reads as its reset content. -/
theorem byteAt_hostReset (s : State) (a : Nat) : (hostReset s).byteAt a = Memory.resetByte s.cfg a := rfl

/-- Settles O55: where the duty holds the turn is `hostReset`; where it does not, the turn is refused. -/
theorem hostResetTurn : Obligations.HostResetTurn := by
  intro s u hdue
  have hstep : step s = if resetAllowed u then .next (hostReset u) else .refused .resetWhileRunning :=
    step_of_hostTurn hdue
  refine ⟨fun hduty => ?_, fun hstarted hpause hrun => ?_⟩
  · have hallowed : resetAllowed u = true := by
      rw [← runEnded_iff] at hduty
      rcases hduty with h | h | h <;> simp [resetAllowed, h]
    exact ⟨hostReset u, hstep.trans (if_pos hallowed), getV_reset, rfl, rfl, rfl, fun a h => resetByte_font u.cfg h,
      fun a h => resetByte_eq_zero u.cfg h, fbRead_reset, rfl, rfl, rfl, rfl, rfl, rfl, rfl, hostReset_keeps u⟩
  · have hrefused : ¬ resetAllowed u = true := by simp [resetAllowed, hstarted, hpause, runEnded_eq_false hrun]
    exact hstep.trans (if_neg hrefused)

/-- What a load leaves at each address (R283). -/
theorem byteAt_load (s : State) (bytes : List Byte) (a : Nat) :
    (s.setMem (Memory.load s.cfg s.mem bytes)).byteAt a =
      if a < 0x200 then s.byteAt a else (bytes.take (s.cfg.memSize - 0x200)).getD (a - 0x200) 0 :=
  read_load s.cfg s.mem bytes a

theorem byteAt_load_program (s : State) {bytes : List Byte} {k : Nat} (hk : k < bytes.length)
    (hin : 0x200 + k < s.cfg.memSize) :
    (s.setMem (Memory.load s.cfg s.mem bytes)).byteAt (0x200 + k) = bytes[k] := by
  have hlen : k < (bytes.take (s.cfg.memSize - 0x200)).length := by rw [List.length_take]; omega
  rw [byteAt_load, if_neg (by omega), Nat.add_sub_cancel_left, List.getD_eq_getElem _ _ hlen, List.getElem_take]

theorem byteAt_load_rest (s : State) {bytes : List Byte} {a : Nat} (ha : 0x200 ≤ a)
    (hout : 0x200 + bytes.length ≤ a ∨ s.cfg.memSize ≤ a) :
    (s.setMem (Memory.load s.cfg s.mem bytes)).byteAt a = 0 := by
  have hlen : (bytes.take (s.cfg.memSize - 0x200)).length ≤ a - 0x200 := by rw [List.length_take]; omega
  rw [byteAt_load, if_neg (by omega), List.getD_eq_default _ _ hlen]

/-- Settles O56: where the duty holds the turn puts the loaded memory in place; where it does not, the turn is refused. -/
theorem loadTurn : Obligations.LoadTurn := by
  intro s u bytes hdue
  have hstep : step s = if loadAllowed u then .next (u.setMem (Memory.load u.cfg u.mem bytes))
      else .refused .loadOutsideBoot := step_of_hostTurn hdue
  refine ⟨fun hfresh hrun => ?_, fun hduty => ?_⟩
  · have hallowed : loadAllowed u = true := by simp [loadAllowed, hfresh, runEnded_eq_false (.inl hrun)]
    exact ⟨_, hstep.trans (if_pos hallowed), fun a ha => (byteAt_load u bytes a).trans (if_pos ha),
      fun k hk => byteAt_load_program u hk, fun a => byteAt_load_rest u, setMem_keeps u _⟩
  · have hrefused : ¬ loadAllowed u = true := by
      rw [← runEnded_iff] at hduty
      rcases hduty with h | h <;> simp [loadAllowed, h]
    exact hstep.trans (if_neg hrefused)

theorem setKey_keeps (s : State) (k : Option Key) : KeepsAllBut [.key] s (s.setKey k) := by
  simp [KeepsAllBut, Part.forall_iff, Part.same]

theorem setStop_keeps (s : State) (b : Bool) : KeepsAllBut [.stop] s (s.setStop b) := by
  simp [KeepsAllBut, Part.forall_iff, Part.same]

theorem setFbReplies_keeps (s : State) (l : List Bool) : KeepsAllBut [.fbReplies] s (s.setFbReplies l) := by
  simp [KeepsAllBut, Part.forall_iff, Part.same]

/-- The read port wraps the coordinates itself (R191). -/
theorem fbRead_wrapped (fb : Framebuffer) (x y : Nat) : fbRead fb (x % 64) (y % 32) = fbRead fb x y :=
  fbRead_congr fb (by simp [sameCell])

/-- Settles O57: each turn writes one piece of the state. -/
theorem keyAndDisplayTurns : Obligations.KeyAndDisplayTurns := by
  refine fun s u => ⟨fun k hdue => ?_, fun hdue => ?_, fun x y hdue => ?_, fun level hdue => ?_, fun hdue => ?_⟩
  · exact ⟨u.setKey (some k), step_of_hostTurn hdue, rfl, setKey_keeps u _⟩
  · exact ⟨u.setKey none, step_of_hostTurn hdue, rfl, setKey_keeps u _⟩
  · exact ⟨u.setFbReplies (u.fbReplies ++ [fbRead u.fb x y]), step_of_hostTurn hdue,
      by rw [fbRead_wrapped, setFbReplies_fbReplies], setFbReplies_keeps u _⟩
  · exact ⟨u.setPause level, step_of_hostTurn hdue, rfl, setPause_keeps u level⟩
  · exact ⟨u.setStop true, step_of_hostTurn hdue, rfl, setStop_keeps u true⟩

/-- Settles O54: the registers and pixels by the way they were filled, memory by what a cell holds that nothing has
written. -/
theorem resetValues : Obligations.ResetValues := by
  have hread : ∀ a, a < 4095 → memRead State.reset a = .ok (Memory.resetByte Config.default a) :=
    fun a ha => memRead_in ha
  refine ⟨getV_reset, rfl, fbRead_reset, fun a h => ?_, fun a h80 h => ?_, fun a h => memRead_out h, rfl, rfl, rfl, rfl,
    rfl, rfl, rfl, rfl⟩
  · rw [hread a (by omega), resetByte_font _ h]
    rfl
  · rw [hread a h, resetByte_eq_zero _ h80]

end Sys2Proof.Machine

/-! PROOFS. What every instruction may write: for each form the pieces of state and the registers that its work may
change. The rules about who writes PC, I, VF, the stack, the display, the timers and memory are read off from that. -/

namespace Sys2Proof.Machine

/-- The pieces of state that the work of each form may change, besides what its end changes. -/
def ownParts : Instr → List Part
  | .sys _ => []
  | .cls => [.fb]
  | .ret | .call _ => [.pc, .stack]
  | .jp _ | .jpV0 _ => [.pc]
  | .seImm _ _ | .sneImm _ _ | .seReg _ _ | .sneReg _ _ | .skp _ | .sknp _ => [.pc]
  | .ldImm _ _ | .addImm _ _ | .ldReg _ _ | .orReg _ _ | .andReg _ _ | .xorReg _ _ | .ldVxDT _ => [.regs]
  | .addReg _ _ | .subReg _ _ | .shrReg _ _ | .subnReg _ _ | .shlReg _ _ => [.regs]
  | .rnd _ _ => [.draws, .regs]
  | .drw _ _ _ => [.fb, .regs]
  | .ldVxK _ => [.wait]
  | .ldDTVx _ => [.dt]
  | .ldSTVx _ => [.st, .events]
  | .ldI _ | .addIVx _ | .ldFVx _ => [.i]
  | .ldBVx _ | .storeRegs _ => [.mem]
  | .loadRegs _ => [.regs]

/-- What the end of an instruction may change: CYCLES when it completes, RUN and the events when it faults, RUN when it
opens the key wait. -/
def endParts : List Part := [.cycles, .run, .events]

theorem Part.same_refl (p : Part) (s : State) : p.same s s := by
  cases p <;> simp [Part.same]

theorem keepsAllBut_refl (ps : List Part) (s : State) : KeepsAllBut ps s s :=
  fun p _ => p.same_refl s

theorem complete_frame {ps : List Part} {s u : State} (hwork : KeepsAllBut ps s u) :
    ∃ t, complete u = .next t ∧ KeepsAllBut (ps ++ endParts) s t :=
  ⟨_, rfl, hwork.trans ((setCycles_keeps u _).mono (by decide))⟩

theorem raise_frame {ps : List Part} {s u : State} {f : CpuFault} (hwork : KeepsAllBut ps s u) :
    ∃ t, raise f u = .next t ∧ KeepsAllBut (ps ++ endParts) s t :=
  ⟨_, rfl, hwork.trans ((enterFault_keeps f u).mono (by decide))⟩

/-- Whether its accesses were all done or stopped at a fault, an instruction has the frame of their work. -/
theorem finish_frame {ps : List Part} {s u : State} {c : Prop} [Decidable c] {f : CpuFault}
    (hwork : KeepsAllBut ps s u) :
    ∃ t, (if c then Flow.done u else .raised f u).finish = .next t ∧ KeepsAllBut (ps ++ endParts) s t := by
  split
  · exact complete_frame hwork
  · exact raise_frame hwork

theorem decimalDigits_ne_nil (b : Byte) : decimalDigits b ≠ [] := List.cons_ne_nil _ _

theorem storedRegs_length (x : RegIdx) (s : State) : ((regsUpTo x).map s.getV).length = x.val + 1 := by
  rw [List.length_map, regsUpTo_length]

theorem storedRegs_ne_nil (x : RegIdx) (s : State) : (regsUpTo x).map s.getV ≠ [] :=
  List.ne_nil_of_length_eq_add_one (storedRegs_length x s)

/-- Every form answers a next state, and changes its own parts and those of its end only. -/
theorem exec_frame (i : Instr) (s : State) :
    ∃ t, exec i s = .next t ∧ KeepsAllBut (ownParts i ++ endParts) s t := by
  cases i with
  | sys => exact raise_frame (keepsAllBut_refl _ s)
  | cls => exact complete_frame (setFb_keeps s fbReset)
  | ret =>
    obtain ⟨-, hpop, hempty⟩ := returnPopsPc
    cases hstack : s.stack with
    | nil =>
      obtain ⟨t, ht, -, hkeeps⟩ := hempty s hstack
      exact ⟨t, ht, hkeeps.mono (by simp [endParts])⟩
    | cons a rest =>
      obtain ⟨t, ht, -, -, -, hkeeps, -⟩ := hpop s a rest hstack
      exact ⟨t, ht, hkeeps.mono (by simp [ownParts, endParts])⟩
  | call nnn =>
    obtain ⟨-, hroom, hfull⟩ := callPushesPc nnn
    by_cases h : StackIsFull s
    · obtain ⟨t, ht, -, hkeeps⟩ := hfull s h
      exact ⟨t, ht, hkeeps.mono (by simp [endParts])⟩
    · obtain ⟨t, ht, -, -, -, hkeeps⟩ := hroom s h
      exact ⟨t, ht, hkeeps.mono (by simp [ownParts, endParts])⟩
  | jp | jpV0 => exact complete_frame (setPc_keeps s _)
  | seImm | sneImm | seReg | sneReg | skp | sknp => exact complete_frame (skipIf_keeps _ s)
  | ldImm | addImm | ldReg | orReg | andReg | xorReg | ldVxDT => exact complete_frame (setV_keeps s _ _)
  | addReg | subReg | shrReg | subnReg | shlReg =>
    exact complete_frame (((setV_keeps s _ _).trans (setV_keeps _ _ _)).mono (by simp [ownParts]))
  | rnd => exact complete_frame ((setDraws_keeps s _).trans (setV_keeps _ _ _))
  | drw x y n =>
    obtain ⟨fb, hit, -, -, -, hexec⟩ := execDrw_spec x y n s
    rw [exec, hexec]
    split
    · exact complete_frame ((setFb_keeps s fb).trans (setV_keeps _ _ _))
    · exact raise_frame ((setFb_keeps s fb).mono (by simp [ownParts]))
  | ldVxK x => exact ⟨_, rfl, ((setRun_keeps s .waitKey).trans (setWait_keeps _ x)).mono (by simp [ownParts, endParts])⟩
  | ldDTVx => exact complete_frame (setDt_keeps s _)
  | ldSTVx => exact complete_frame (setSound_keeps _ s)
  | ldI | addIVx | ldFVx => exact complete_frame (setI_keeps s _)
  | ldBVx x =>
    obtain ⟨u, hflow, -, -, hwork⟩ := storeBytes_effect (decimalDigits_ne_nil (s.getV x)) s.i.toNat s
    rw [exec, execLdBVx, hflow]
    exact finish_frame hwork
  | storeRegs x =>
    obtain ⟨u, hflow, -, -, hwork⟩ := storeBytes_effect (storedRegs_ne_nil x s) s.i.toNat s
    rw [exec, execStoreRegs, hflow]
    exact finish_frame hwork
  | loadRegs x =>
    obtain ⟨u, hflow, -, -, hwork⟩ := loadBytes_regsUpTo_effect x s.i.toNat s
    rw [exec, execLoadRegs, hflow]
    exact finish_frame hwork

/-- Settles O45: the frame's own next state. -/
theorem everyInstructionAnswersNext : Obligations.EveryInstructionAnswersNext := by
  intro i s
  obtain ⟨t, ht, -⟩ := exec_frame i s
  exact ⟨t, ht⟩

end Sys2Proof.Machine

/-! PROOFS. The rules about every instruction (10_state.md sections 2 to 6, 20_memory.md section 1, 70_reset_and_hazards.md
section 3), from the frame of each form. -/

namespace Sys2Proof.Machine

/-- An outcome has one next state. -/
theorem next_unique {P : State → Prop} {o : Outcome} {t : State} (h : ∃ u, o = .next u ∧ P u) (ht : o = .next t) :
    P t := by
  obtain ⟨u, hu, hP⟩ := h
  cases hu.symm.trans ht
  exact hP

theorem exec_keeps {i : Instr} {s t : State} (h : exec i s = .next t) : KeepsAllBut (ownParts i ++ endParts) s t :=
  next_unique (exec_frame i s) h

/-- A piece that an instruction changed, and that its end does not, is one of the form's own. -/
theorem mem_ownParts_of_changed {i : Instr} {s t : State} (h : exec i s = .next t) {p : Part} (hp : p ∉ endParts)
    (hne : ¬ p.same s t) : p ∈ ownParts i := by
  by_contra hown
  exact hne (exec_keeps h p (by simp [hown, hp]))

/-! PC and I. -/

theorem skip_pc_of_changed {i : Instr} {c : Bool} {s t : State} (hskip : exec i s = complete (skipIf c s))
    (h : exec i s = .next t) (hne : t.pc ≠ s.pc) : t.pc = s.pc + 2 := by
  obtain ⟨-, -, hpc⟩ := next_unique (skip_spec hskip) h
  cases c with
  | true => exact hpc
  | false => exact absurd hpc hne

/-- Settles O46: PC is an own part of the transfers and the skips, I of three forms. -/
theorem onlyNamedFormsWritePcAndIndex : Obligations.OnlyNamedFormsWritePcAndIndex := by
  refine fun i s t h => ⟨fun hne => ?_, fun hne => ?_⟩
  · have hown : .pc ∈ ownParts i := mem_ownParts_of_changed h (by decide) hne
    cases i with
    | jp nnn | call nnn | jpV0 nnn => exact .inl ⟨nnn, by simp⟩
    | ret => exact .inr (.inl rfl)
    | seImm x nn | sneImm x nn => exact .inr (.inr ⟨skip_pc_of_changed rfl h hne, x, 0, nn, by simp⟩)
    | seReg x y | sneReg x y => exact .inr (.inr ⟨skip_pc_of_changed rfl h hne, x, y, 0, by simp⟩)
    | skp x | sknp x => exact .inr (.inr ⟨skip_pc_of_changed rfl h hne, x, 0, 0, by simp⟩)
    | _ => simp [ownParts] at hown
  · have hown : .i ∈ ownParts i := mem_ownParts_of_changed h (by decide) hne
    cases i with
    | ldI nnn => exact ⟨0, nnn, .inl rfl⟩
    | addIVx x | ldFVx x => exact ⟨x, 0, by simp⟩
    | _ => simp [ownParts] at hown

/-! The registers. -/

/-- The registers that each form may change. -/
def ownRegs : Instr → List RegIdx
  | .ldImm x _ | .addImm x _ | .ldReg x _ | .orReg x _ | .andReg x _ | .xorReg x _ | .rnd x _ | .ldVxDT x => [x]
  | .addReg x _ | .subReg x _ | .shrReg x _ | .subnReg x _ | .shlReg x _ => [x, 15]
  | .drw _ _ _ => [15]
  | .loadRegs x => regsUpTo x
  | _ => []

/-- Every form changes its own registers only. -/
theorem exec_keepsRegs {i : Instr} {s t : State} (h : exec i s = .next t) : KeepsRegsBut (ownRegs i) s t := by
  cases i with
  | ldImm | addImm | ldReg | orReg | andReg | xorReg | ldVxDT =>
    obtain ⟨-, hregs, -⟩ := next_unique (write_spec rfl) h
    exact hregs
  | addReg | subReg | subnReg =>
    obtain ⟨-, -, hregs, -⟩ := next_unique (writeThenFlag_spec rfl) h
    exact hregs
  | shrReg x y =>
    obtain ⟨-, -, hregs, -⟩ := next_unique (shiftRightCapturesLowBit x y s) h
    exact hregs
  | shlReg x y =>
    obtain ⟨-, -, hregs, -⟩ := next_unique (shiftLeftCapturesHighBit x y s) h
    exact hregs
  | rnd x nn =>
    obtain ⟨-, -, hregs, -⟩ := next_unique (randomIsOneMaskedDraw x nn s) h
    exact hregs
  | drw x y n =>
    by_cases hin : n.val = 0 ∨ s.i.toNat + n.val ≤ s.cfg.memSize
    · obtain ⟨-, -, -, -, hregs, -⟩ := next_unique (drawXorsAndReportsCollision x y n s hin) h
      exact hregs
    · obtain ⟨-, -, -, hkeeps⟩ :=
        next_unique (drawOutOfBoundsKeepsRowsBefore x y n s (by omega) (by omega)) h
      exact fun r _ => hkeeps .regs (by decide) r
  | loadRegs x =>
    intro r hr
    have hxr : x < r := Fin.not_le.1 fun hle => hr ((mem_regsUpTo x r).2 hle)
    obtain ⟨hin, hout⟩ := (registersLoaded x).2 s
    by_cases hmem : s.i.toNat + x.val < s.cfg.memSize
    · obtain ⟨-, hkept, -⟩ := next_unique (hin hmem) h
      exact hkept r hxr
    · obtain ⟨-, -, hkept, -⟩ := next_unique (hout (Nat.not_lt.1 hmem)) h
      exact hkept r (.inl hxr)
  | _ => exact fun r _ => exec_keeps h .regs (by simp [ownParts, endParts]) r

/-- Settles O47: F is an own register of the forms with a flag, and else only where it is named. -/
theorem onlyNamedFormsWriteFlag : Obligations.OnlyNamedFormsWriteFlag := by
  intro i s t h hne
  have hown : 15 ∈ ownRegs i := by
    by_contra hr
    exact hne (exec_keepsRegs h 15 hr)
  cases i with
  | addReg x y | subReg x y | shrReg x y | subnReg x y | shlReg x y => exact .inl ⟨x, y, 0, by simp⟩
  | drw x y n => exact .inl ⟨x, y, n, by simp⟩
  | ldImm x nn | addImm x nn | rnd x nn => exact .inr ⟨0, nn, by simpa [ownRegs, eq_comm] using hown⟩
  | ldReg x y | orReg x y | andReg x y | xorReg x y => exact .inr ⟨y, 0, by simpa [ownRegs, eq_comm] using hown⟩
  | ldVxDT x => exact .inr ⟨0, 0, by simpa [ownRegs, eq_comm] using hown⟩
  | loadRegs x =>
    have hx : x = 15 := Fin.last_le_iff.1 ((mem_regsUpTo x 15).1 hown)
    exact .inr ⟨0, 0, by simp [hx]⟩
  | _ => simp [ownRegs] at hown

/-! The stack, the framebuffer, the timers and what the host drives. -/

/-- A framebuffer is what its pixels read. -/
theorem fb_ext {fb fb' : Framebuffer} (h : ∀ x y, fbRead fb' x y = fbRead fb x y) : fb' = fb := by
  refine Vector.ext fun y hy => Vector.ext fun x hx => ?_
  simpa only [fbRead, Nat.mod_eq_of_lt hx, Nat.mod_eq_of_lt hy] using h x y

/-- The parameters, what the host drives, and whose turn it is. -/
def hostParts : List Part := [.key, .pause, .stop, .cfg, .agenda, .schedule]

theorem hostParts_not_written (i : Instr) : ∀ p ∈ hostParts, p ∉ ownParts i ++ endParts := by
  cases i <;> simp [hostParts, ownParts, endParts]

/-- Settles O48: each of the four units is an own part of its writers, and the host's inputs are one of no form. -/
theorem onlyNamedFormsWriteUnits : Obligations.OnlyNamedFormsWriteUnits := by
  intro i s t h
  have hown := fun p => mem_ownParts_of_changed h (p := p)
  have hkept : ∀ p ∈ hostParts, p.same s t := fun p hp => exec_keeps h p (hostParts_not_written i p hp)
  refine ⟨fun hne => ?_, fun hne => ?_, fun hne => ?_, fun hne => ?_, hkept .key (by decide), hkept .pause (by decide),
    hkept .stop (by decide), hkept .cfg (by decide), hkept .agenda (by decide), hkept .schedule (by decide)⟩
  · have hstack := hown .stack (by decide) hne
    cases i with
    | ret => exact .inl rfl
    | call nnn => exact .inr ⟨nnn, rfl⟩
    | _ => simp [ownParts] at hstack
  · have hfb := hown .fb (by decide) fun hsame => hne (fb_ext hsame)
    cases i with
    | cls => exact .inl rfl
    | drw x y n => exact .inr ⟨x, y, n, rfl⟩
    | _ => simp [ownParts] at hfb
  · have hdt := hown .dt (by decide) hne
    cases i with
    | ldDTVx x => exact ⟨x, rfl⟩
    | _ => simp [ownParts] at hdt
  · have hst := hown .st (by decide) hne
    cases i with
    | ldSTVx x => exact ⟨x, rfl⟩
    | _ => simp [ownParts] at hst

/-! Memory. -/

/-- Whether all bytes were stored or not, memory changes only where a byte was to be stored, and only inside. -/
theorem store_changes_only {i : Instr} {s t : State} {bs : List Byte} {a : Nat} (hbs : bs ≠ [])
    (hexec : exec i s = (storeBytes s.i.toNat bs s).finish) (h : exec i s = .next t) (hne : t.byteAt a ≠ s.byteAt a) :
    a < s.cfg.memSize ∧ s.i.toNat ≤ a ∧ a < s.i.toNat + bs.length := by
  obtain ⟨u, hflow, -, hout, -⟩ := storeBytes_effect hbs s.i.toNat s
  have hafter : KeepsAllBut endParts u t := by
    refine next_unique ?_ h
    rw [hexec, hflow]
    exact finish_frame (keepsAllBut_refl [] u)
  have hsame : ¬ (a < s.i.toNat ∨ s.i.toNat + min bs.length (s.cfg.memSize - s.i.toNat) ≤ a) :=
    fun ha => hne ((hafter .mem (by decide) a).trans (hout a ha))
  omega

/-- Settles O49: memory is an own part of the two forms that store, which change the bytes they store. -/
theorem onlyStoresChangeMemory : Obligations.OnlyStoresChangeMemory := by
  intro i s t a h hne
  have hown : .mem ∈ ownParts i := mem_ownParts_of_changed h (by decide) fun hsame => hne (hsame a)
  cases i with
  | ldBVx x =>
    obtain ⟨hmem, hfrom, hto⟩ := store_changes_only (decimalDigits_ne_nil (s.getV x)) rfl h hne
    exact ⟨hmem, hfrom, .inl ⟨x, rfl, hto⟩⟩
  | storeRegs x =>
    obtain ⟨hmem, hfrom, hto⟩ := store_changes_only (storedRegs_ne_nil x s) rfl h hne
    rw [storedRegs_length] at hto
    exact ⟨hmem, hfrom, .inr ⟨x, rfl, hto⟩⟩
  | _ => simp [ownParts] at hown

/-! The cycle counter and the delay timer. -/

/-- Settles O50: by the three ways in which an instruction ends. -/
theorem cyclesCountCompletedInstructions : Obligations.CyclesCountCompletedInstructions := by
  intro i s t hrun h
  rcases exec_next_cases i s t h with ⟨u, rfl, hu, -⟩ | ⟨f, u, rfl, hu, -⟩ | ⟨x, rfl, rfl⟩
  · exact .inl ⟨hu.run.trans hrun, rfl⟩
  · exact .inr (.inl ⟨⟨f, enterFault_run f u⟩, (enterFault_cycles f u).trans hu.cycles⟩)
  · exact .inr (.inr ⟨rfl, rfl, x, rfl⟩)

theorem CpuTurn.keepsAllBut {s u : State} (h : CpuTurn s u) : KeepsAllBut [.agenda, .schedule] s u := by
  rcases h with ⟨-, rfl⟩ | hdue
  · exact keepsAllBut_refl _ u
  · exact hdue.keepsAllBut

theorem wordAtPc_congr {s u : State} (hpc : u.pc = s.pc) (hmem : ∀ a, u.byteAt a = s.byteAt a) :
    wordAtPc u = wordAtPc s := by
  rw [wordAtPc, hpc, hmem, hmem, wordAtPc]

/-- An instruction that changes DT is FX15, which sets it to a register. -/
theorem exec_changes_dt {i : Instr} {s t : State} (h : exec i s = .next t) (hne : t.dt ≠ s.dt) :
    ∃ x, i = .ldDTVx x ∧ t.dt = s.getV x := by
  obtain ⟨-, -, hdt, -⟩ := onlyNamedFormsWriteUnits i s t h
  obtain ⟨x, rfl⟩ := hdt hne
  cases h
  exact ⟨x, rfl, rfl⟩

/-- A step of the CPU that changes DT performs the FX15 at PC. -/
theorem cpuStep_changes_dt {s t : State} (h : cpuStep s = .next t) (hne : t.dt ≠ s.dt) :
    ∃ x, decodeWord (wordAtPc s) = .ok (.ldDTVx x) ∧ t.dt = s.getV x := by
  rcases cpuStep_next_cases h with ⟨f, pc, rfl⟩ | ⟨i, hword, hexec⟩ | rfl | ⟨k, hpoll⟩ | rfl
  · exact absurd (enterFault_dt f _) hne
  · obtain ⟨x, rfl, hdt⟩ := exec_changes_dt hexec hne
    exact ⟨x, hword, hdt⟩
  · exact absurd rfl hne
  · cases hpoll
    exact absurd rfl hne
  · exact absurd rfl hne

/-- Every operation of the host that has a next state: the reset, a load, or one of those that write neither the block's
state, but for the key latch, nor memory. -/
theorem hostStep_next_cases {op : HostOp} {s t : State} (h : hostStep op s = .next t) :
    (op = .reset ∧ t = hostReset s) ∨
    (loadAllowed s = true ∧ ∃ bytes, t = s.setMem (Memory.load s.cfg s.mem bytes)) ∨
    (t.mem = s.mem ∧ KeepsAllBut [.key, .pause, .stop, .fbReplies] s t) := by
  cases op with
  | reset =>
    rw [hostStep] at h
    split at h <;> cases h
    exact .inl ⟨rfl, rfl⟩
  | load bytes =>
    rw [hostStep] at h
    split at h <;> cases h
    exact .inr (.inl ⟨‹_›, bytes, rfl⟩)
  | keyDown | keyUp =>
    cases h
    exact .inr (.inr ⟨rfl, (setKey_keeps s _).mono (by decide)⟩)
  | setPause level =>
    cases h
    exact .inr (.inr ⟨rfl, (setPause_keeps s level).mono (by decide)⟩)
  | setStop =>
    cases h
    exact .inr (.inr ⟨rfl, (setStop_keeps s true).mono (by decide)⟩)
  | fbRead x y =>
    cases h
    exact .inr (.inr ⟨rfl, (setFbReplies_keeps s _).mono (by decide)⟩)

theorem hostStep_dt_le {op : HostOp} {s t : State} (h : hostStep op s = .next t) : t.dt.toNat ≤ s.dt.toNat := by
  rcases hostStep_next_cases h with ⟨-, rfl⟩ | ⟨-, bytes, rfl⟩ | ⟨-, hkeeps⟩
  · exact Nat.zero_le _
  · exact Nat.le_refl _
  · have hdt : t.dt = s.dt := hkeeps .dt (by decide)
    rw [hdt]

/-- Settles O51: a tick and the host only lower DT, and of the CPU's steps only the FX15 at PC changes it. -/
theorem delayRisesOnlyBySet : Obligations.DelayRisesOnlyBySet := by
  intro s t h hrise
  rcases step_next_cases s t h with ⟨u, hturn, hu⟩ | ⟨u, hdue, rfl⟩ | ⟨op, u, hdue, hop⟩
  · have hkeeps := hturn.keepsAllBut
    have hdt : u.dt = s.dt := hkeeps .dt (by decide)
    have hreg : ∀ r, u.getV r = s.getV r := hkeeps .regs (by decide)
    have hword := wordAtPc_congr (hkeeps .pc (by decide)) (hkeeps .mem (by decide))
    have hne : t.dt ≠ u.dt := fun e => by rw [e, hdt] at hrise; omega
    have hstep := hu.resolve_left fun e => hne (congrArg State.dt e)
    obtain ⟨x, hdecode, hset⟩ := cpuStep_changes_dt hstep hne
    exact ⟨⟨u, hturn⟩, x, hword ▸ hdecode, hset.trans (hreg x)⟩
  · have hdt : u.dt = s.dt := hdue.keepsAllBut .dt (by decide)
    rw [tick_dt, hdt] at hrise
    omega
  · have hdt : u.dt = s.dt := hdue.keepsAllBut .dt (by decide)
    have hle := hostStep_dt_le hop
    rw [hdt] at hle
    omega

end Sys2Proof.Machine

/-! PROOFS. The canonical form of memory (20_memory.md R60): two canonical lists that read the same list the same cells,
and a list by strictly rising address is determined by its cells. -/

namespace Sys2Proof.Machine

theorem mem_of_find {m : Memory} {a : Nat} {b : Byte} (h : Memory.find m a = some b) : (a, b) ∈ m := by
  induction m with
  | nil => cases h
  | cons p m ih =>
    obtain ⟨k, c⟩ := p
    rw [Memory.find] at h
    split at h
    · subst_vars
      cases h
      exact List.mem_cons_self
    · exact List.mem_cons_of_mem _ (ih h)

/-- With strictly rising addresses a listed cell is the one found. -/
theorem find_of_mem {m : Memory} {p : Host.Cell} (hrise : m.Pairwise (fun p q => p.1 < q.1)) (h : p ∈ m) :
    Memory.find m p.1 = some p.2 := by
  induction m with
  | nil => cases h
  | cons q m ih =>
    obtain ⟨hfirst, hrest⟩ := List.pairwise_cons.1 hrise
    rw [Memory.find]
    rcases List.mem_cons.1 h with rfl | hp
    · exact if_pos rfl
    · rw [if_neg (Nat.ne_of_lt (hfirst p hp)), ih hrest hp]

/-- A cell of a canonical memory is listed by every canonical memory that reads the same, since its byte is not the
reset content. -/
theorem mem_of_same_reads {c : Config} {m m' : Memory} (hm : Memory.wf c m = true)
    (hreads : ∀ a, Memory.read c m a = Memory.read c m' a) {p : Host.Cell} (hp : p ∈ m) : p ∈ m' := by
  obtain ⟨hrise, hcells⟩ := (wf_iff c m).1 hm
  obtain ⟨-, hbyte⟩ := hcells p hp
  have hread : (Memory.find m' p.1).getD (Memory.resetByte c p.1) = p.2 := by
    have h := hreads p.1
    rw [Memory.read, find_of_mem hrise hp] at h
    exact h.symm
  cases hfind : Memory.find m' p.1 with
  | none =>
    rw [hfind] at hread
    exact absurd hread.symm hbyte
  | some b =>
    rw [hfind] at hread
    exact mem_of_find (hfind.trans (congrArg some hread))

/-- Settles O60: both lists rise strictly and list the same cells. -/
theorem canonicalMemoryIsUnique : Obligations.CanonicalMemoryIsUnique := by
  intro c m m' hm hm' hreads
  obtain ⟨hrise, -⟩ := (wf_iff c m).1 hm
  obtain ⟨hrise', -⟩ := (wf_iff c m').1 hm'
  have hirrefl : Std.Irrefl (fun p q : Host.Cell => p.1 < q.1) := ⟨fun p => Nat.lt_irrefl p.1⟩
  have hantisymm : Std.Antisymm (fun p q : Host.Cell => p.1 < q.1) := ⟨fun p q h h' => absurd h (Nat.lt_asymm h')⟩
  exact hrise.eq_of_mem_iff hrise' fun p =>
    ⟨mem_of_same_reads hm hreads, mem_of_same_reads hm' fun a => (hreads a).symm⟩

end Sys2Proof.Machine

/-! PROOFS. The invariant (10_state.md section 5, 60_exceptions.md sections 2 and 5): what it does not speak of, the
operations that write a piece it speaks of, then each agent's step. -/

namespace Sys2Proof.Machine

/-- The invariant speaks of the parameters, memory, CYCLES, the stack, RUN, `started` and the reports among the events. -/
theorem State.Inv.of_keeps {s t : State} (h : s.Inv)
    (hkeeps : KeepsAllBut [.regs, .i, .pc, .mem, .fb, .dt, .st, .key, .wait, .pause, .stop, .draws, .agenda, .schedule,
      .events, .fbReplies] s t)
    (hmem : Memory.wf s.cfg t.mem = true) (hevents : s.events ⊆ t.events) : t.Inv := by
  have hcfg : t.cfg = s.cfg := hkeeps .cfg (by decide)
  have hcycles : t.cycles = s.cycles := hkeeps .cycles (by decide)
  have hstack : t.stack = s.stack := hkeeps .stack (by decide)
  have hrun : t.run = s.run := hkeeps .run (by decide)
  have hstarted : t.started = s.started := hkeeps .started (by decide)
  refine ⟨hcfg ▸ h.cfgValid, hcfg ▸ hmem, ?_, ?_, fun f hf => ?_, ?_⟩
  · rw [hcycles, hcfg]
    exact h.cyclesSaturate
  · rw [hcfg, hstack]
    exact h.stackFits
  · obtain ⟨snap, hsnap⟩ := h.haltReported f (hrun.symm.trans hf)
    exact ⟨snap, hevents hsnap⟩
  · rw [hstarted, hrun]
    exact h.freshRun

theorem State.Inv.setStarted {s : State} (h : s.Inv) : (s.setStarted true).Inv :=
  { h with freshRun := nofun }

theorem State.Inv.setCycles {s : State} {n : Nat} (h : s.Inv) (hn : n ≤ s.cfg.cycleMax) : (s.setCycles n).Inv :=
  { h with cyclesSaturate := hn }

theorem State.Inv.setRun {s : State} {r : RunState} (h : s.Inv) (hhalt : ∀ f, r ≠ .halted f)
    (hfresh : s.started = false → r = .running ∨ r = .stopped) : (s.setRun r).Inv :=
  { h with haltReported := fun f hf => absurd hf (hhalt f), freshRun := hfresh }

/-- A fault reports itself. -/
theorem State.Inv.enterFault {s : State} (h : s.Inv) (hstarted : s.started = true) (f : CpuFault) :
    (enterFault f s).Inv where
  cfgValid := by simpa using h.cfgValid
  memCanonical := by simpa using h.memCanonical
  cyclesSaturate := by simpa using h.cyclesSaturate
  stackFits := by simpa using h.stackFits
  haltReported := by
    intro g hg
    cases (enterFault_run f s).symm.trans hg
    exact ⟨s.snapshot, by simp⟩
  freshRun := by simp [hstarted]

/-- The work of an instruction, before its end. -/
theorem State.Inv.of_sameHost {s u : State} (h : s.Inv) (hu : SameHost s u) (hevents : s.events ⊆ u.events)
    (hstack : ∀ d, s.cfg.stackDepth = some d → s.stack.length ≤ d → u.stack.length ≤ d) : u.Inv := by
  have hcfg := hu.cfg
  refine ⟨hcfg ▸ h.cfgValid, hcfg ▸ hu.memWf h.memCanonical, ?_, ?_, fun f hf => ?_, ?_⟩
  · rw [hu.cycles, hcfg]
    exact h.cyclesSaturate
  · rw [hcfg]
    exact fun d hd => hstack d hd (h.stackFits d hd)
  · obtain ⟨snap, hsnap⟩ := h.haltReported f (hu.run.symm.trans hf)
    exact ⟨snap, hevents hsnap⟩
  · rw [hu.started, hu.run]
    exact h.freshRun

/-- However an instruction ends, it keeps the invariant, once the CPU has started. -/
theorem State.Inv.exec {i : Instr} {s t : State} (h : s.Inv) (hstarted : s.started = true)
    (hexec : exec i s = .next t) : t.Inv := by
  rcases exec_next_cases i s t hexec with ⟨u, rfl, hu, hevents, hstack⟩ | ⟨f, u, rfl, hu, hevents, hstack⟩ | ⟨x, -, rfl⟩
  · have hgrow : s.events ⊆ u.events := by
      rcases hevents with e | e <;> simp [e]
    refine (h.of_sameHost hu hgrow hstack).setCycles ?_
    rw [hu.cfg]
    exact Nat.min_le_right _ _
  · have hsame : s.events ⊆ u.events := by simp [hevents]
    exact (h.of_sameHost hu hsame fun _ _ hfits => hstack ▸ hfits).enterFault (hu.started.trans hstarted) f
  · have hwait : (s.setRun .waitKey).Inv := h.setRun nofun fun hfresh => by simp [hstarted] at hfresh
    exact hwait.of_keeps ((setWait_keeps _ x).mono (by decide)) hwait.memCanonical (List.Subset.refl _)

theorem State.Inv.cpuStep {s t : State} (h : s.Inv) (hstep : cpuStep s = .next t) : t.Inv := by
  have hfetched : ∀ pc, ((s.setStarted true).setPc pc).Inv := fun pc =>
    h.setStarted.of_keeps ((setPc_keeps _ pc).mono (by decide)) h.memCanonical (List.Subset.refl _)
  rcases cpuStep_next_cases hstep with ⟨f, pc, rfl⟩ | ⟨i, -, hexec⟩ | rfl | ⟨k, hpoll⟩ | rfl
  · exact (hfetched pc).enterFault rfl f
  · exact (hfetched _).exec rfl hexec
  · exact h
  · cases hpoll
    have hwritten : (s.setV s.wait (keyByte k)).Inv :=
      h.of_keeps ((setV_keeps s _ _).mono (by decide)) h.memCanonical (List.Subset.refl _)
    have hruns : ((s.setV s.wait (keyByte k)).setRun .running).Inv := hwritten.setRun nofun fun _ => .inl rfl
    exact hruns.setCycles (Nat.min_le_right _ _)
  · exact h.setRun nofun fun _ => .inr rfl

theorem State.Inv.tick {s : State} (h : s.Inv) : (tick s).Inv := by
  refine h.of_keeps ((tick_keeps s).mono (by decide)) ((tick_mem s).symm ▸ h.memCanonical) ?_
  rw [tick_events]
  exact List.subset_append_left _ _

/-- A reset empties memory and the stack and lets a CPU that has not started run. -/
theorem State.Inv.hostReset {s : State} (h : s.Inv) : (hostReset s).Inv where
  cfgValid := h.cfgValid
  memCanonical := wf_nil s.cfg
  cyclesSaturate := Nat.zero_le _
  stackFits := fun d _ => Nat.zero_le d
  haltReported := nofun
  freshRun := fun _ => .inl rfl

theorem State.Inv.hostStep {op : HostOp} {s t : State} (h : s.Inv) (hstep : hostStep op s = .next t) : t.Inv := by
  rcases hostStep_next_cases hstep with ⟨-, rfl⟩ | ⟨-, bytes, rfl⟩ | ⟨hmem, hkeeps⟩
  · exact h.hostReset
  · exact h.of_keeps ((setMem_keeps s _).mono (by decide)) (wf_load bytes h.memCanonical) (List.Subset.refl _)
  · have hevents : t.events = s.events := hkeeps .events (by decide)
    exact h.of_keeps (hkeeps.mono (by decide)) (hmem ▸ h.memCanonical) (by simp [hevents])

theorem State.Inv.turnDue {s u : State} {turn : Turn} (h : s.Inv) (hdue : TurnDue s turn u) : u.Inv := by
  obtain ⟨agenda, schedule, rfl⟩ := hdue.keeps
  exact { h with }

/-- Settles O59: by whose step it was. -/
theorem stepKeepsInvariant : Obligations.StepKeepsInvariant := by
  intro s t h hstep
  rcases step_next_cases s t hstep with ⟨u, hturn, hu⟩ | ⟨u, hdue, rfl⟩ | ⟨op, u, hdue, hop⟩
  · have hinv : u.Inv := by
      rcases hturn with ⟨-, rfl⟩ | hdue
      · exact h
      · exact h.turnDue hdue
    rcases hu with rfl | hcpu
    · exact hinv
    · exact hinv.cpuStep hcpu
  · exact (h.turnDue hdue).tick
  · exact (h.turnDue hdue).hostStep hop

/-- Settles O58: the default parameters are admitted, and everything else is empty or 0. -/
theorem resetHasInvariant : Obligations.ResetHasInvariant where
  cfgValid := by simp [State.reset, Config.valid, Config.default, Config.openCycleMax]
  memCanonical := wf_reset
  cyclesSaturate := Nat.zero_le _
  stackFits := nofun
  haltReported := nofun
  freshRun := fun _ => .inl rfl

end Sys2Proof.Machine

/-! PROOFS. HALTED and STOPPED are final (60_exceptions.md sections 2 and 3): one step from such a state, with no reset to
come, and from it every run. -/

namespace Sys2Proof.Machine

/-- A turn that never comes is not the one that is due, and does not come after it. -/
theorem NeverDue.of_turnDue {turn d : Turn} {s u : State} (h : NeverDue turn s) (hdue : TurnDue s d u) :
    d ≠ turn ∧ NeverDue turn u := by
  obtain ⟨hagenda, hschedule⟩ := h
  rcases hdue with ⟨rest, ha, rfl⟩ | ⟨-, rest, hs, rfl⟩ | ⟨ha, n, hs, rfl, rfl⟩
  · rw [ha, List.mem_cons, not_or] at hagenda
    exact ⟨Ne.symm hagenda.1, hagenda.2, hschedule⟩
  · have hturns : turn ∉ d :: rest := by simpa only [hs] using hschedule
    rw [List.mem_cons, not_or] at hturns
    exact ⟨Ne.symm hturns.1, hturns.2, hschedule⟩
  · have hnever : ∀ k, n ≤ k → Config.freeTurn k ≠ turn := by simpa only [hs] using hschedule
    exact ⟨hnever n (Nat.le_refl n), hagenda, fun k hk => hnever k (by omega)⟩

theorem NeverDue.of_same_turns {turn : Turn} {s t : State} (h : NeverDue turn s) (hagenda : t.agenda = s.agenda)
    (hschedule : t.schedule = s.schedule) : NeverDue turn t := by
  unfold NeverDue
  rw [hagenda, hschedule]
  exact h

/-- What still changes in a CPU that has ended: the timers, the key latch, the levels, the turns, and what the environment
was told. -/
def afterEndParts : List Part := [.dt, .st, .key, .pause, .stop, .agenda, .schedule, .events, .fbReplies]

/-- An ended CPU has no step of its own. -/
theorem cpuMove_of_runEnded {s : State} (h : runEnded s = true) : ∃ why, cpuMove s = .idle why := by
  rcases (runEnded_iff s).1 h with ⟨f, hrun⟩ | hrun
  · exact ⟨_, cpuMove_halted hrun⟩
  · exact ⟨_, cpuMove_stopped hrun⟩

theorem runEnded_congr {s t : State} (h : t.run = s.run) : runEnded t = runEnded s := by
  rw [runEnded, h, runEnded]

/-- After the end a turn that is not the reset changes only those parts: the CPU is idle and a load is refused. -/
theorem takeTurn_after_end {turn : Turn} {u t : State} (hended : runEnded u = true) (hreset : turn ≠ .host .reset)
    (h : takeTurn turn u = .next t) : KeepsAllBut afterEndParts u t := by
  cases turn with
  | cpu =>
    obtain ⟨why, hidle⟩ := cpuMove_of_runEnded hended
    rw [takeTurn, cpuTurn, hidle] at h
    cases h
    exact keepsAllBut_refl _ u
  | tick =>
    cases h
    exact (tick_keeps u).mono (by decide)
  | host op =>
    rcases hostStep_next_cases h with ⟨rfl, -⟩ | ⟨hallowed, -⟩ | ⟨-, hkeeps⟩
    · exact absurd rfl hreset
    · simp [loadAllowed, hended] at hallowed
    · exact hkeeps.mono (by decide)

theorem step_after_end {s t : State} (hended : runEnded s = true) (hnever : NeverDue (.host .reset) s)
    (h : step s = .next t) : KeepsAllBut afterEndParts s t ∧ NeverDue (.host .reset) t := by
  cases hdue : nextTurn s with
  | none =>
    obtain ⟨why, hidle⟩ := cpuMove_of_runEnded hended
    rw [step_of_idle_alone (nextTurn_eq_none.1 hdue) hidle] at h
    cases h
  | some p =>
    obtain ⟨turn, u⟩ := p
    have hdue := nextTurn_eq_some.1 hdue
    rw [step_of_turnDue hdue] at h
    obtain ⟨hreset, hlater⟩ := hnever.of_turnDue hdue
    have hrun : u.run = s.run := hdue.keepsAllBut .run (by decide)
    obtain ⟨hagenda, hschedule⟩ := takeTurn_keeps_turns h
    have hkeeps := hdue.keepsAllBut.trans (takeTurn_after_end ((runEnded_congr hrun).trans hended) hreset h)
    exact ⟨hkeeps.mono (by decide), hlater.of_same_turns hagenda hschedule⟩

/-- Settles O44: by induction on the run, with the absence of a reset carried along. -/
theorem haltAndStopAreFinal : Obligations.HaltAndStopAreFinal := by
  intro s t hsteps hnever hrun
  have hended : runEnded s = true := (runEnded_iff s).2 hrun
  suffices h : KeepsAllBut afterEndParts s t ∧ NeverDue (.host .reset) t from h.left
  induction hsteps with
  | refl => exact ⟨keepsAllBut_refl _ _, hnever⟩
  | tail _ hstep ih =>
    obtain ⟨hkeeps, hlater⟩ := ih
    have hend := (runEnded_congr (hkeeps .run (by decide))).trans hended
    obtain ⟨hkeeps', hlater'⟩ := step_after_end hend hlater hstep
    exact ⟨(hkeeps.trans hkeeps').mono (by decide), hlater'⟩

end Sys2Proof.Machine
